-- ==== Sys2Proof/Word.lean ====
section
/-! DEFINITION. The block's word types: a byte and the 32-bit values a request carries (00_scope.md R8 to R10, 30_encoding.md R60). -/

namespace Sys2Proof

/-- 00_scope.md R10: a byte is an 8-bit unsigned value. -/
abbrev Byte := BitVec 8

/-- 00_scope.md R6 `ADDR_IN_WIDTH`: a request address as the caller supplies it, before masking. -/
abbrev Addr := BitVec 32

/-- 30_encoding.md R60: the width of `wdata` and `rdata`. -/
abbrev Word := BitVec 32

/-- 30_encoding.md R60, R61: the command word `CMD8`. -/
abbrev Cmd := BitVec 8

end Sys2Proof
end

