-- ==== Sys2Proof/Syntax.lean ====
section
/-! DEFINITION. The six transactions, the AddressSpace operand, the request that spells a transaction, and the events of the caller. -/

namespace Sys2Proof

/-- 10_state.md R22: the privilege mode of a transaction. -/
inductive Mode where
  | user
  | supervisor
  deriving DecidableEq, Repr

/-- 10_state.md R22, 00_scope.md R14: instruction fetch (Program) or operand (Data). -/
inductive Segment where
  | program
  | data
  deriving DecidableEq, Repr

/-- 10_state.md R22: an AddressSpace value has two fields, so exactly four values exist (40_address_space.md R74). -/
structure AddressSpace where
  mode : Mode
  segment : Segment
  deriving DecidableEq, Repr

/-- 10_state.md R22. -/
abbrev AddressSpace.supervisorProgram : AddressSpace := ⟨.supervisor, .program⟩
/-- 10_state.md R22. -/
abbrev AddressSpace.supervisorData : AddressSpace := ⟨.supervisor, .data⟩
/-- 10_state.md R22. -/
abbrev AddressSpace.userProgram : AddressSpace := ⟨.user, .program⟩
/-- 10_state.md R22. -/
abbrev AddressSpace.userData : AddressSpace := ⟨.user, .data⟩

/-- 20_memory.md R50: a transaction moves exactly 8, 16 or 32 bits. -/
inductive Width where
  | byte
  | word
  | long
  deriving DecidableEq, Repr

/-- 30_encoding.md R69: the six operations, as the history record names them (10_state.md R33). -/
inductive Op where
  | readByte
  | readWord
  | readLong
  | writeByte
  | writeWord
  | writeLong
  deriving DecidableEq, Repr

/-- One constructor per row of spec/opcode_table.json, with the operands of 41_read_transactions.md R79 to R81 and
42_write_transactions.md R83 to R85. A read has no write data (30_encoding.md R68). -/
inductive Instr where
  | readByte (space : AddressSpace) (addr : Addr)
  | readWord (space : AddressSpace) (addr : Addr)
  | readLong (space : AddressSpace) (addr : Addr)
  | writeByte (space : AddressSpace) (addr : Addr) (value : Word)
  | writeWord (space : AddressSpace) (addr : Addr) (value : Word)
  | writeLong (space : AddressSpace) (addr : Addr) (value : Word)
  deriving DecidableEq, Repr

/-- 30_encoding.md R60: the three fields of a request. -/
structure Request where
  cmd : Cmd
  addr : Addr
  wdata : Word
  deriving DecidableEq, Repr

/-- 30_encoding.md R70: why a request spells no operation. -/
inductive DecodeError where
  /-- 30_encoding.md R65 -/
  | reservedBits
  /-- 30_encoding.md R66 -/
  | unrepresentableFunctionCode
  /-- 30_encoding.md R67 -/
  | reservedSize
  deriving DecidableEq, Repr

/-- What the caller can do to the block: one event, one step. -/
inductive Event where
  /-- `NEW(size)` (70_reset_and_hazards.md R101); the size is any non-negative integer. -/
  | construct (size : Nat)
  /-- A request issued by a caller that waits for its completion (30_encoding.md R59). -/
  | request (r : Request)
  /-- A request issued by a caller that does not wait: once accepted it stands in flight (20_memory.md R58; log 3). -/
  | issue (r : Request)
  /-- The transaction in flight completes (log 3). -/
  | complete
  /-- The session ends (70_reset_and_hazards.md R106). -/
  | release
  deriving DecidableEq, Repr

end Sys2Proof
end

