-- ==== Sys2Proof/Machine/AddressSpace.lean ====
section
/-! DEFINITION. The operations on an AddressSpace value (40_address_space.md): function code, equality, debug text. -/

namespace Sys2Proof

/-- 40_address_space.md R73: the function code. -/
def AddressSpace.fc (s : AddressSpace) : BitVec 3 :=
  match s.mode, s.segment with
  | .supervisor, .program => 6#3
  | .supervisor, .data => 5#3
  | .user, .program => 2#3
  | .user, .data => 1#3

/-- 30_encoding.md R62: the AddressSpace a function code stands for; the codes 0, 3, 4 and 7 stand for none (R66). -/
def AddressSpace.ofFc (c : BitVec 3) : Option AddressSpace :=
  if c = 1#3 then some .userData
  else if c = 2#3 then some .userProgram
  else if c = 5#3 then some .supervisorData
  else if c = 6#3 then some .supervisorProgram
  else none

/-- 40_address_space.md R75: equality of AddressSpace values. -/
def AddressSpace.eq (s t : AddressSpace) : Bool :=
  decide (s.mode = t.mode) && decide (s.segment = t.segment)

/-- 40_address_space.md R76. -/
def Mode.name : Mode → String
  | .supervisor => "Supervisor"
  | .user => "User"

/-- 40_address_space.md R76. -/
def Segment.name : Segment → String
  | .program => "Program"
  | .data => "Data"

/-- 40_address_space.md R76: the debug text (log 16). -/
def AddressSpace.debug (s : AddressSpace) : String :=
  "[" ++ s.mode.name ++ "/" ++ s.segment.name ++ "]"

end Sys2Proof
end

