-- ==== Sys2Proof/Config.lean ====
section
/-! DEFINITION. The configuration a construction takes (00_scope.md R6). No free value is needed: the spec leaves no result of a completed transaction open. -/

namespace Sys2Proof

/-- The three parameters 00_scope.md R6 marks "configuration". `size` is the argument of `NEW`; `pageBits` and
`readAllocates` are the implementation's fixed choices (70_reset_and_hazards.md R101). -/
structure Params where
  size : Nat
  pageBits : Nat
  readAllocates : Bool
  deriving DecidableEq, Repr

/-- DESIGN CHOICE (log 9): the configuration `State.reset` is constructed with, the values 95_test_vectors.md takes
where a vector names none. Statements are made for every configuration, never for this one alone. -/
def Config.resetParams : Params := { size := 0x01000000, pageBits := 12, readAllocates := false }

end Sys2Proof
end

