-- ==== Sys2Proof/Machine/Constants.lean ====
section
/-! DEFINITION. The block's fixed parameters (00_scope.md R6). The source's numeric literals are unaudited (00_scope.md R7, 91_not_in_source.md N1). -/

namespace Sys2Proof.Machine

/-- `BUS_WIDTH` (00_scope.md R6). -/
def busWidth : Nat := 24

/-- `ADDRBUS_MASK` (10_state.md R24): a constant, not state. -/
def addrBusMask : Addr := 0x00FFFFFF#32

/-- `MAX_SIZE` (00_scope.md R6). DEDUCED: the bound is the spec's decision D9 (log 13). -/
def maxSize : Nat := 0x01000000

/-- The largest `PAGE_BITS` (00_scope.md R6, decision D10). -/
def maxPageBits : Nat := 24

end Sys2Proof.Machine
end

