-- ==== Sys2Proof/WellFormed.lean ====
section
/-! DEFINITION. When a request spells an operation, and when a configuration is legal. Every term of Instr is well-formed by its type: an AddressSpace is one of four values (40_address_space.md R74) and every 32-bit address and value is accepted (20_memory.md R35, 30_encoding.md R68). -/

namespace Sys2Proof

/-- 30_encoding.md R65: the reserved bits 7:6 are `00`. -/
def Request.resOk (r : Request) : Bool := r.cmd.extractLsb' 6 2 == 0#2

/-- 30_encoding.md R62, R66: bits 5:3 hold the function code of one of the four AddressSpace values. -/
def Request.fcOk (r : Request) : Bool :=
  [1#3, 2#3, 5#3, 6#3].contains (r.cmd.extractLsb' 3 3)

/-- 30_encoding.md R64, R67: the size field is not the reserved `11`. -/
def Request.szOk (r : Request) : Bool := r.cmd.extractLsb' 0 2 != 3#2

/-- 30_encoding.md R69: the request's command word is one of the legal ones. -/
def Request.wellFormed (r : Request) : Bool := r.resOk && r.fcOk && r.szOk

/-- 60_exceptions.md R87: a size that construction accepts. -/
def Params.sizeOk (p : Params) : Bool := 0 < p.size && p.size ≤ Machine.maxSize

/-- 00_scope.md R6: a legal `PAGE_BITS`. -/
def Params.pageBitsOk (p : Params) : Bool := p.pageBits ≤ Machine.maxPageBits

/-- 00_scope.md R6: a legal configuration. -/
def Params.wellFormed (p : Params) : Bool := p.sizeOk && p.pageBitsOk

end Sys2Proof
end

