-- ==== Sys2Proof/Decode.lean ====
section
/-! DEFINITION. The decoder of requests, total over all 256 command words (30_encoding.md R70), and the encoder beside it. -/

namespace Sys2Proof

/-- 30_encoding.md R64: the width a size field stands for. -/
def Width.ofSz (sz : BitVec 2) : Option Width :=
  if sz = 0#2 then some .byte
  else if sz = 1#2 then some .word
  else if sz = 2#2 then some .long
  else none

/-- 30_encoding.md R64: the size field of a width. -/
def Width.sz : Width → BitVec 2
  | .byte => 0#2
  | .word => 1#2
  | .long => 2#2

/-- 30_encoding.md R63, R68: the operation of a direction bit (1 = read) and a width, with its operands; a read ignores `wdata`. -/
def Instr.ofFields (rw : Bool) (w : Width) (space : AddressSpace) (addr : Addr) (wdata : Word) : Instr :=
  match rw, w with
  | true, .byte => .readByte space addr
  | true, .word => .readWord space addr
  | true, .long => .readLong space addr
  | false, .byte => .writeByte space addr wdata
  | false, .word => .writeWord space addr wdata
  | false, .long => .writeLong space addr wdata

/-- 30_encoding.md R70: the first failing check, in the rule's order, names the refusal. -/
def decode (r : Request) : Except DecodeError Instr :=
  if r.cmd.extractLsb' 6 2 ≠ 0#2 then .error .reservedBits
  else
    match AddressSpace.ofFc (r.cmd.extractLsb' 3 3) with
    | none => .error .unrepresentableFunctionCode
    | some space =>
      match Width.ofSz (r.cmd.extractLsb' 0 2) with
      | none => .error .reservedSize
      | some w => .ok (Instr.ofFields (r.cmd.getLsbD 2) w space r.addr r.wdata)

/-- 30_encoding.md R61: the command word `00 fff r ss`. -/
def commandWord (space : AddressSpace) (rw : BitVec 1) (w : Width) : Cmd :=
  0#2 ++ space.fc ++ rw ++ w.sz

/-- 30_encoding.md R60, R69: the request that spells an instruction. A read's `wdata` is ignored; the encoder writes zero. -/
def encode : Instr → Request
  | .readByte space a => ⟨commandWord space 1#1 .byte, a, 0#32⟩
  | .readWord space a => ⟨commandWord space 1#1 .word, a, 0#32⟩
  | .readLong space a => ⟨commandWord space 1#1 .long, a, 0#32⟩
  | .writeByte space a v => ⟨commandWord space 0#1 .byte, a, v⟩
  | .writeWord space a v => ⟨commandWord space 0#1 .word, a, v⟩
  | .writeLong space a v => ⟨commandWord space 0#1 .long, a, v⟩

/-- The request with the bits its operation ignores cleared: a read's `wdata` (30_encoding.md R68). -/
def Request.normalized (r : Request) : Request :=
  if r.cmd.getLsbD 2 then { r with wdata := 0#32 } else r

/-- DESIGN CHOICE (log 18): a request as one number, the command word in bits 7..0, then `addr`, then `wdata`. -/
def Request.ofBits (w : Nat) : Request :=
  ⟨BitVec.ofNat 8 w, BitVec.ofNat 32 (w >>> 8), BitVec.ofNat 32 (w >>> 40)⟩

/-- The instruction the decoder reads from a request whose low `nbits` bits are `w` and whose other bits are zero. -/
def decodeTableWord (nbits w : Nat) : Option Instr :=
  match decode (Request.ofBits (w % 2 ^ nbits)) with
  | .ok i => some i
  | .error _ => none

end Sys2Proof
end

