-- ==== Sys2Proof/Machine/State.lean ====
section
/-! DEFINITION. The state of the block (10_state.md R17) as plain data, the reasons it can stop or refuse, and the state after construction. -/

namespace Sys2Proof.Machine

/-- `M`, the storage: the bytes that are not zero, by physical index, in rising order. -/
abbrev Memory := List Host.Cell

/-- The canonical form: addresses strictly rising, no byte listed that equals what an unlisted one reads as (zero, 10_state.md R17). -/
abbrev Memory.wf (m : Memory) : Prop :=
  List.Pairwise (fun c d : Host.Cell => c.1 < d.1) m ∧ ∀ c ∈ m, c.2 ≠ 0#8

/-- 10_state.md R32: where the instance stands in its life. -/
inductive Life where
  | unconstructed
  | live
  | released
  deriving DecidableEq, Repr

/-- 10_state.md R33: one record of the transaction history. -/
structure Record where
  op : Op
  space : AddressSpace
  addr : Addr
  data : Word
  deriving DecidableEq, Repr

/-- 60_exceptions.md R87: the two causes of `ConstructError`. -/
inductive ConstructReason where
  | sizeZero
  | sizeTooLarge
  deriving DecidableEq, Repr

/-- 00_scope.md R12 (3): why a request is refused. -/
inductive RefuseReason where
  /-- The request spells no operation (30_encoding.md R65 to R67). -/
  | undecodable (e : DecodeError)
  /-- No instance has been constructed (70_reset_and_hazards.md R107). -/
  | unconstructed
  /-- The instance has been released (70_reset_and_hazards.md R106, R107). -/
  | released
  /-- Another transaction is in flight (20_memory.md R58). -/
  | overlapping
  deriving DecidableEq, Repr

/-- The model's output: what the last event answered the caller (log 6). No transaction reads it. -/
inductive Response where
  /-- Nothing has been answered. -/
  | nothing
  /-- A construction returned its instance (70_reset_and_hazards.md R101). -/
  | constructed
  /-- A construction raised `ConstructError(reason, size)` (60_exceptions.md R87). -/
  | constructError (reason : ConstructReason) (size : Nat)
  /-- A read returned `rdata` (30_encoding.md R60). -/
  | rdata (v : Word)
  /-- A write completed; it returns nothing (42_write_transactions.md R82). -/
  | written
  /-- The request was refused (00_scope.md R12). -/
  | refused (why : RefuseReason)
  /-- The instance was released (70_reset_and_hazards.md R106). -/
  | released
  deriving DecidableEq, Repr

/-- The block raises no fault at access time (60_exceptions.md R86, R89), so there is no way for a step to fault (log 8). -/
inductive Fault : Type
  deriving DecidableEq, Repr

/-- Why a step has no next state. Each is safe: the model stops, and nothing can be proved of what would follow. -/
inductive Refusal where
  /-- Raised by an arm of `exec` for an instruction without a meaning; no arm of this model raises it. Safe. -/
  | notModelled (mnemonic : String)
  /-- Raised by `step` on any event presented after a refusal: the mark is kept for the rest of the run, and the run must
  not continue (00_scope.md R12, 92_eei_decisions.md D4; log 1). Safe. -/
  | runRefused
  /-- Raised by `step` when the caller has presented no event: there is no step to take (30_encoding.md R59; log 2). Safe. -/
  | noEvent
  /-- Raised by `step` on `complete` with no transaction in flight: no such event exists (log 3). Safe. -/
  | nothingInFlight
  /-- Raised by `step` on `release` without a live instance: there is nothing to release (log 5). Safe. -/
  | nothingToRelease
  deriving DecidableEq, Repr

/-- The complete state (10_state.md R17), and below it the model's own fields. -/
structure State where
  /-- `SIZE` -/
  size : Nat
  /-- `PAGE_BITS` -/
  pageBits : Nat
  /-- `READ_ALLOCATES` -/
  readAllocates : Bool
  /-- `M` (10_state.md R26); the bytes of the pages of `P` stand here too (10_state.md R28; log 7). -/
  mem : Memory
  /-- `dom(P)`, the allocated page indices in rising order (10_state.md R27). -/
  pages : List Nat
  /-- `life` (10_state.md R32) -/
  life : Life
  /-- `H` (10_state.md R33), oldest first -/
  history : List Record
  /-- `refused`, the refusal mark (00_scope.md R12) -/
  refused : Bool
  /-- The transaction in flight, decoded when it was accepted (20_memory.md R58; log 3). -/
  inFlight : Option Instr
  /-- The model's output (log 6). -/
  response : Response
  /-- The caller's events still to come, the next one first (log 2). -/
  pending : List Event
  deriving DecidableEq, Repr

/-- 70_reset_and_hazards.md R101, R103 and 10_state.md R17: the state a successful construction leaves. -/
def State.fresh (p : Params) : State :=
  { size := p.size
    pageBits := p.pageBits
    readAllocates := p.readAllocates
    mem := []
    pages := []
    life := .live
    history := []
    refused := false
    inFlight := none
    response := .constructed
    pending := [] }

/-- 60_exceptions.md R88: before construction no storage, no page table and no history exist (log 4). -/
def State.unconstructed (pageBits : Nat) (readAllocates : Bool) : State :=
  { State.fresh ⟨0, pageBits, readAllocates⟩ with life := .unconstructed, response := .nothing }

/-- Construction is the block's only reset (00_scope.md R4 (g), 70_reset_and_hazards.md R101): the state it leaves, with
the configuration of log 9 and no event presented (log 2). -/
def State.reset : State := State.fresh Config.resetParams

end Sys2Proof.Machine
end

