-- ==== Sys2Proof/Machine/Flags.lean ====
section
/-! DEFINITION. The block has no status flags and no condition codes (10_state.md R20). Its one mark is the refusal mark; this file holds when a transaction is accepted and what a refusal does. -/

namespace Sys2Proof.Machine

/-- 41_read_transactions.md R78, 42_write_transactions.md R82: a decoded transaction is accepted when `life = Live` and no
other one is in flight. -/
abbrev State.Accepting (s : State) : Prop := s.life = .live ∧ s.inFlight = none

/-- Why a decoded transaction is not accepted, none where it is. The order of the names is log 17's. -/
def State.blocked (s : State) : Option RefuseReason :=
  match s.life with
  | .unconstructed => some .unconstructed
  | .released => some .released
  | .live => if s.inFlight.isSome then some .overlapping else none

/-- The mark once the instance ends, by release or by a construction in its place: a transaction in flight can no longer
complete and is refused there and then. DESIGN CHOICE: the spec says nothing of that case (log 4, log 5). -/
def State.markAtEnd (s : State) : Bool := s.refused || s.inFlight.isSome

/-- 00_scope.md R12 (3), 30_encoding.md R65: nothing changes but the refusal mark; the answer names the reason. -/
def State.refuse (why : RefuseReason) (s : State) : State :=
  { s with refused := true, response := .refused why }

end Sys2Proof.Machine
end

