-- ==== Sys2Proof/Machine/Operands.lean ====
section
/-! DEFINITION. Operands: the fields of a transaction, the translation of its address, page index and offset, and the bytes of its value. -/

namespace Sys2Proof

/-- 20_memory.md R50: the bytes of a width. -/
def Width.bytes : Width → Nat
  | .byte => 1
  | .word => 2
  | .long => 4

/-- The operation of an instruction (10_state.md R33 `op`). -/
def Instr.op : Instr → Op
  | .readByte _ _ => .readByte
  | .readWord _ _ => .readWord
  | .readLong _ _ => .readLong
  | .writeByte _ _ _ => .writeByte
  | .writeWord _ _ _ => .writeWord
  | .writeLong _ _ _ => .writeLong

/-- The AddressSpace operand. -/
def Instr.space : Instr → AddressSpace
  | .readByte sp _ | .readWord sp _ | .readLong sp _ => sp
  | .writeByte sp _ _ | .writeWord sp _ _ | .writeLong sp _ _ => sp

/-- The request address. -/
def Instr.addr : Instr → Addr
  | .readByte _ a | .readWord _ a | .readLong _ a => a
  | .writeByte _ a _ | .writeWord _ a _ | .writeLong _ a _ => a

/-- The write data; a read has none. -/
def Instr.wdata? : Instr → Option Word
  | .readByte _ _ | .readWord _ _ | .readLong _ _ => none
  | .writeByte _ _ v | .writeWord _ _ v | .writeLong _ _ v => some v

/-- The access width of an operation (30_encoding.md R69). -/
def Op.width : Op → Width
  | .readByte | .writeByte => .byte
  | .readWord | .writeWord => .word
  | .readLong | .writeLong => .long

/-- Whether an operation writes (30_encoding.md R69). -/
def Op.isWrite : Op → Bool
  | .readByte | .readWord | .readLong => false
  | .writeByte | .writeWord | .writeLong => true

/-- The same transaction at another request address. -/
def Instr.withAddr (b : Addr) : Instr → Instr
  | .readByte sp _ => .readByte sp b
  | .readWord sp _ => .readWord sp b
  | .readLong sp _ => .readLong sp b
  | .writeByte sp _ v => .writeByte sp b v
  | .writeWord sp _ v => .writeWord sp b v
  | .writeLong sp _ v => .writeLong sp b v

/-- The same transaction under another AddressSpace. -/
def Instr.withSpace (t : AddressSpace) : Instr → Instr
  | .readByte _ a => .readByte t a
  | .readWord _ a => .readWord t a
  | .readLong _ a => .readLong t a
  | .writeByte _ a v => .writeByte t a v
  | .writeWord _ a v => .writeWord t a v
  | .writeLong _ a v => .writeLong t a v

namespace Machine

/-- `T(a)`, 20_memory.md R34: mask to the 24-bit bus, then reduce onto the declared size. DEDUCED: the reduction
`mod SIZE` is the spec's decision D8 (log 12). -/
def translate (size : Nat) (a : Addr) : Nat := (a &&& addrBusMask).toNat % size

/-- 20_memory.md R43: the request address of constituent byte `i`, modulo 2^32. -/
def constituent (a : Addr) (i : Nat) : Addr := a + BitVec.ofNat 32 i

/-- `pg(p)`, 20_memory.md R38. -/
def pageIndex (pageBits p : Nat) : Nat := p >>> pageBits

/-- `off(p)`, 20_memory.md R38. -/
def pageOffset (pageBits p : Nat) : Nat := p &&& (2 ^ pageBits - 1)

/-- 00_scope.md R10, 20_memory.md R45: byte number `i` of the `w.bytes`-byte value in the low bits of `v`, byte 0 the
most significant. The bits of `v` above the width are never taken (30_encoding.md R68; decision D5, log 10). -/
def byteOf (w : Width) (v : Word) (i : Nat) : Byte := v.extractLsb' (8 * (w.bytes - 1 - i)) 8

/-- `T(a)` in a state. -/
def State.phys (s : State) (a : Addr) : Nat := translate s.size a

/-- The physical index of constituent byte `i` (20_memory.md R43): masked again, so it wraps (decision D7, log 11). -/
def State.physOf (s : State) (a : Addr) (i : Nat) : Nat := s.phys (constituent a i)

/-- `pg(p)` in a state. -/
def State.pg (s : State) (p : Nat) : Nat := pageIndex s.pageBits p

/-- `off(p)` in a state. -/
def State.off (s : State) (p : Nat) : Nat := pageOffset s.pageBits p

end Machine

end Sys2Proof
end

