-- ==== Sys2Proof/Machine/Ops.lean ====
section
/-! DEFINITION. The shared operations: storage, page table and lazy allocator, byte and multi-byte accesses, the common part of reads and writes, construction with its one error, release. -/

namespace Sys2Proof.Machine

/-- The byte at an index; an unlisted one is zero (10_state.md R17, 70_reset_and_hazards.md R103). -/
def Memory.read : Memory → Nat → Byte
  | [], _ => 0#8
  | (q, b) :: m, p => if p = q then b else Memory.read m p

/-- Store one byte, keeping the canonical form: a zero byte is not listed. -/
def Memory.write : Memory → Nat → Byte → Memory
  | [], p, v => if v = 0#8 then [] else [(p, v)]
  | (q, b) :: m, p, v =>
    if p < q then (if v = 0#8 then (q, b) :: m else (p, v) :: (q, b) :: m)
    else if p = q then (if v = 0#8 then m else (p, v) :: m)
    else (q, b) :: Memory.write m p v

/-- Add a page index to the allocated ones, keeping them in rising order. -/
def insertPage (g : Nat) : List Nat → List Nat
  | [] => [g]
  | h :: t => if g < h then g :: h :: t else if g = h then h :: t else h :: insertPage g t

/-- `P[g]` as its bytes by offset, the zero ones not listed (10_state.md R27, R28). -/
def State.page (s : State) (g : Nat) : Memory :=
  (s.mem.filter (fun c => s.pg c.1 == g)).map (fun c => (s.off c.1, c.2))

/-- 20_memory.md R39: the allocated page, or none when `g` is unallocated. -/
def State.lookup (s : State) (g : Nat) : Option Memory :=
  if g ∈ s.pages then some (s.page g) else none

/-- `P[g] <- array of PAGE_SIZE zero bytes` (20_memory.md R40, R41; 10_state.md R30). It never fails (20_memory.md R42). -/
def State.allocate (s : State) (g : Nat) : State :=
  { s with
    pages := insertPage g s.pages
    mem := s.mem.filter (fun c => s.pg c.1 != g) }

/-- `ByteRead(p)`, 20_memory.md R40. -/
def State.byteRead (s : State) (p : Nat) : Byte × State :=
  match s.lookup (s.pg p) with
  | some page => (page.read (s.off p), s)
  | none => (0#8, if s.readAllocates then s.allocate (s.pg p) else s)

/-- The page of a byte about to be written: allocated on first touch (20_memory.md R41). -/
def State.touch (s : State) (g : Nat) : State :=
  match s.lookup g with
  | some _ => s
  | none => s.allocate g

/-- `ByteWrite(p, v)`, 20_memory.md R41. -/
def State.byteWrite (s : State) (p : Nat) (v : Byte) : State :=
  let s₁ := s.touch (s.pg p)
  { s₁ with mem := s₁.mem.write p v }

/-- The loop of 20_memory.md R44 over the constituent bytes listed. -/
def State.readBytes (a : Addr) : List Nat → Word → State → Word × State
  | [], r, s => (r, s)
  | i :: is, r, s =>
    let x := s.byteRead (s.physOf a i)
    State.readBytes a is ((r <<< 8) ||| x.1.setWidth 32) x.2

/-- `MemRead(a, n)`, 20_memory.md R44, zero-extended to 32 bits (30_encoding.md R68). -/
def State.memRead (a : Addr) (w : Width) (s : State) : Word × State :=
  State.readBytes a (List.range w.bytes) 0#32 s

/-- The loop of 20_memory.md R45 over the constituent bytes listed. -/
def State.writeBytes (a : Addr) (w : Width) (v : Word) : List Nat → State → State
  | [], s => s
  | i :: is, s => State.writeBytes a w v is (s.byteWrite (s.physOf a i) (byteOf w v i))

/-- `MemWrite(a, n, v)`, 20_memory.md R45, ascending (decision D20, log 14); of `v` the low 8n bits (30_encoding.md R68). -/
def State.memWrite (a : Addr) (w : Width) (v : Word) (s : State) : State :=
  State.writeBytes a w v (List.range w.bytes) s

/-- `H <- H ++ [(op, space, a, data)]`, 10_state.md R33. -/
def State.record (s : State) (op : Op) (space : AddressSpace) (a : Addr) (data : Word) : State :=
  { s with history := s.history ++ [⟨op, space, a, data⟩] }

/-- `Read(space, a, n)`, 41_read_transactions.md R78: an accepted read's answer and its state. -/
def State.performRead (op : Op) (space : AddressSpace) (a : Addr) (s : State) : Word × State :=
  let x := s.memRead a op.width
  (x.1, x.2.record op space a x.1)

/-- `Write(space, a, n, wdata)`, 42_write_transactions.md R82: an accepted write. -/
def State.performWrite (op : Op) (space : AddressSpace) (a : Addr) (wdata : Word) (s : State) : State :=
  (s.memWrite a op.width wdata).record op space a wdata

/-- 41_read_transactions.md R78: accepted, or refused. -/
def State.readTransaction (op : Op) (space : AddressSpace) (a : Addr) (s : State) :
    Host.Outcome State Fault Refusal :=
  match s.blocked with
  | some why => .next (s.refuse why)
  | none => .next { (s.performRead op space a).2 with response := .rdata (s.performRead op space a).1 }

/-- 42_write_transactions.md R82: accepted, or refused. -/
def State.writeTransaction (op : Op) (space : AddressSpace) (a : Addr) (wdata : Word) (s : State) :
    Host.Outcome State Fault Refusal :=
  match s.blocked with
  | some why => .next (s.refuse why)
  | none => .next { s.performWrite op space a wdata with response := .written }

/-- The codes of 60_exceptions.md R87; no rule reads them (decision D15, log 13). -/
def ConstructReason.code : ConstructReason → Nat
  | .sizeZero => 1
  | .sizeTooLarge => 2

/-- `raise ConstructError(reason, size)`, the block's one error: no instance comes into being, and what stood before
stands (60_exceptions.md R87, R88; log 4). -/
def State.raiseConstructError (reason : ConstructReason) (size : Nat) (s : State) : State :=
  { s with response := .constructError reason size }

/-- `NEW(size)`, 70_reset_and_hazards.md R101, with the configuration values the implementation fixed. The mark is kept
(00_scope.md R12): it is unset, as R101 says, unless it was set or a transaction was in flight (DESIGN CHOICE, log 4). -/
def State.construct (size : Nat) (s : State) : State :=
  if size = 0 then s.raiseConstructError .sizeZero size
  else if maxSize < size then s.raiseConstructError .sizeTooLarge size
  else { State.fresh ⟨size, s.pageBits, s.readAllocates⟩ with refused := s.markAtEnd, pending := s.pending }

/-- 70_reset_and_hazards.md R106: all page storage is freed together and `life <- Released`. DESIGN CHOICE where the spec
is silent (log 5): a transaction in flight is refused by the release itself, so none is left in flight and the mark is set;
SIZE and the history stay. -/
def State.release (s : State) : State :=
  { s with
    mem := []
    pages := []
    life := .released
    refused := s.markAtEnd
    inFlight := none
    response := .released }

end Sys2Proof.Machine
end

