-- ==== Sys2Proof/Machine/Reads.lean ====
section
/-! DEFINITION. The three reads (41_read_transactions.md R79 to R81). An instruction fetch is one of these under a Program segment (20_memory.md R56). -/

namespace Sys2Proof.Machine

/-- `READ_BYTE`, 41_read_transactions.md R79. -/
def execReadByte (space : AddressSpace) (a : Addr) (s : State) : Host.Outcome State Fault Refusal :=
  s.readTransaction .readByte space a

/-- `READ_WORD`, 41_read_transactions.md R80. -/
def execReadWord (space : AddressSpace) (a : Addr) (s : State) : Host.Outcome State Fault Refusal :=
  s.readTransaction .readWord space a

/-- `READ_LONG`, 41_read_transactions.md R81. -/
def execReadLong (space : AddressSpace) (a : Addr) (s : State) : Host.Outcome State Fault Refusal :=
  s.readTransaction .readLong space a

end Sys2Proof.Machine
end

