-- ==== Sys2Proof/Machine/Writes.lean ====
section
/-! DEFINITION. The three writes (42_write_transactions.md R83 to R85). -/

namespace Sys2Proof.Machine

/-- `WRITE_BYTE`, 42_write_transactions.md R83. -/
def execWriteByte (space : AddressSpace) (a : Addr) (value : Word) (s : State) : Host.Outcome State Fault Refusal :=
  s.writeTransaction .writeByte space a value

/-- `WRITE_WORD`, 42_write_transactions.md R84. -/
def execWriteWord (space : AddressSpace) (a : Addr) (value : Word) (s : State) : Host.Outcome State Fault Refusal :=
  s.writeTransaction .writeWord space a value

/-- `WRITE_LONG`, 42_write_transactions.md R85. -/
def execWriteLong (space : AddressSpace) (a : Addr) (value : Word) (s : State) : Host.Outcome State Fault Refusal :=
  s.writeTransaction .writeLong space a value

end Sys2Proof.Machine
end

