-- ==== Sys2Proof/Machine/Dispatch.lean ====
section
/-! DEFINITION. One arm per instruction: the rows of spec/opcode_table.json. -/

namespace Sys2Proof.Machine

def exec (i : Instr) (s : State) : Host.Outcome State Fault Refusal :=
  match i with
  | .readByte space a => Sys2Proof.Machine.execReadByte space a s
  | .readWord space a => Sys2Proof.Machine.execReadWord space a s
  | .readLong space a => Sys2Proof.Machine.execReadLong space a s
  | .writeByte space a value => Sys2Proof.Machine.execWriteByte space a value s
  | .writeWord space a value => Sys2Proof.Machine.execWriteWord space a value s
  | .writeLong space a value => Sys2Proof.Machine.execWriteLong space a value s

end Sys2Proof.Machine
end

