-- ==== Sys2Proof/Machine/Events.lean ====
section
/-! DEFINITION. What each event of the caller does: construction, a request, an issue, the completion of the transaction in flight, release. -/

namespace Sys2Proof.Machine

/-- What a request spells, or its refusal where it spells nothing (30_encoding.md R65 to R67, R70). The decoder's reason
comes before any other (DESIGN CHOICE, log 17). -/
def decoded (r : Request) (s : State) (run : Instr → State → Host.Outcome State Fault Refusal) :
    Host.Outcome State Fault Refusal :=
  match decode r with
  | .ok i => run i s
  | .error e => .next (s.refuse (.undecodable e))

/-- Run a request: the caller waits, so it is accepted and completes in one step, or is refused (30_encoding.md R59). -/
def serve (r : Request) (s : State) : Host.Outcome State Fault Refusal := decoded r s exec

/-- A transaction accepted without its caller waiting stands in flight; one that is not accepted is refused at once
(41_read_transactions.md R78, 42_write_transactions.md R82, 70_reset_and_hazards.md R107, 20_memory.md R58). -/
def takeUp (i : Instr) (s : State) : Host.Outcome State Fault Refusal :=
  match s.blocked with
  | some why => .next (s.refuse why)
  | none => .next { s with inFlight := some i, response := .nothing }

/-- A request whose caller does not wait. DESIGN CHOICE (log 3): the spec has no such pair of events and gives acceptance
no moment; here the request is decoded and judged when it is issued, exactly as one whose caller waits. -/
def issue (r : Request) (s : State) : Host.Outcome State Fault Refusal := decoded r s takeUp

/-- The transaction in flight, accepted when it was issued, completes as one indivisible step (20_memory.md R51; log 3). -/
def complete (s : State) : Host.Outcome State Fault Refusal :=
  match s.inFlight with
  | none => .refused .nothingInFlight
  | some i => exec i { s with inFlight := none }

/-- The end of a session (70_reset_and_hazards.md R106; log 5). -/
def endSession (s : State) : Host.Outcome State Fault Refusal :=
  if s.life = .live then .next s.release else .refused .nothingToRelease

/-- What an event does while the mark is unset. -/
def perform (e : Event) (s : State) : Host.Outcome State Fault Refusal :=
  match e with
  | .construct size => .next (s.construct size)
  | .request r => serve r s
  | .issue r => issue r s
  | .complete => complete s
  | .release => endSession s

/-- One event of the caller, in the state that no longer lists it. After a refusal the run does not continue: the mark is
kept, and no event is taken any more (00_scope.md R12, 92_eei_decisions.md D4; log 1). -/
def handle (e : Event) (s : State) : Host.Outcome State Fault Refusal :=
  if s.refused then .refused .runRefused else perform e s

end Sys2Proof.Machine
end

