-- ==== Sys2Proof/Machine/Step.lean ====
section
/-! DEFINITION. One step: the next event of the caller (30_encoding.md R59). -/

namespace Sys2Proof.Machine

/-- The block takes the next event of its caller; where there is none, there is no step to take (log 2). -/
def step (s : State) : Host.Outcome State Fault Refusal :=
  match s.pending with
  | [] => .refused .noEvent
  | e :: rest => handle e { s with pending := rest }

/-- The request whose low `nbits` bits are `w` put where `step` takes its next event (log 2, log 18). -/
def State.withFetchWord (s : State) (nbits w : Nat) : State :=
  { s with pending := .request (Request.ofBits (w % 2 ^ nbits)) :: s.pending }

end Sys2Proof.Machine
end

