-- ==== Sys2Proof/Machine/Bus.lean ====
section
/-! DEFINITION. AddressBus, the contract of six operations (00_scope.md R1, R4 (b); 20_memory.md R57), PagedMem as an implementation of it, and a logging decorator in front of a bus (60_exceptions.md R99). -/

namespace Sys2Proof.Machine

/-- 00_scope.md R1: the capability contract, over whatever state the implementation keeps. Result widths as
30_encoding.md R68 gives them. -/
structure AddressBus (σ : Type) where
  readByte : AddressSpace → Addr → σ → BitVec 8 × σ
  readWord : AddressSpace → Addr → σ → BitVec 16 × σ
  readLong : AddressSpace → Addr → σ → BitVec 32 × σ
  writeByte : AddressSpace → Addr → Word → σ → σ
  writeWord : AddressSpace → Addr → Word → σ → σ
  writeLong : AddressSpace → Addr → Word → σ → σ

/-- PagedMem behind the contract: the operations of an accepted transaction. -/
def pagedMem : AddressBus State where
  readByte sp a s := ((s.performRead .readByte sp a).1.setWidth 8, (s.performRead .readByte sp a).2)
  readWord sp a s := ((s.performRead .readWord sp a).1.setWidth 16, (s.performRead .readWord sp a).2)
  readLong sp a s := s.performRead .readLong sp a
  writeByte sp a v s := s.performWrite .writeByte sp a v
  writeWord sp a v s := s.performWrite .writeWord sp a v
  writeLong sp a v s := s.performWrite .writeLong sp a v

/-- A transaction through the abstract interface alone (95_test_vectors.md S7): `rdata` zero-extended for a read, none for a write. -/
def AddressBus.run {σ : Type} (b : AddressBus σ) (i : Instr) (s : σ) : Option Word × σ :=
  match i with
  | .readByte sp a => (some ((b.readByte sp a s).1.setWidth 32), (b.readByte sp a s).2)
  | .readWord sp a => (some ((b.readWord sp a s).1.setWidth 32), (b.readWord sp a s).2)
  | .readLong sp a => (some (b.readLong sp a s).1, (b.readLong sp a s).2)
  | .writeByte sp a v => (none, b.writeByte sp a v s)
  | .writeWord sp a v => (none, b.writeWord sp a v s)
  | .writeLong sp a v => (none, b.writeLong sp a v s)

/-- 60_exceptions.md R99: a decorator that records every call before forwarding it unchanged (log 20). -/
def AddressBus.logging {σ : Type} (b : AddressBus σ) : AddressBus (List Instr × σ) where
  readByte sp a s := ((b.readByte sp a s.2).1, (s.1 ++ [.readByte sp a], (b.readByte sp a s.2).2))
  readWord sp a s := ((b.readWord sp a s.2).1, (s.1 ++ [.readWord sp a], (b.readWord sp a s.2).2))
  readLong sp a s := ((b.readLong sp a s.2).1, (s.1 ++ [.readLong sp a], (b.readLong sp a s.2).2))
  writeByte sp a v s := (s.1 ++ [.writeByte sp a v], b.writeByte sp a v s.2)
  writeWord sp a v s := (s.1 ++ [.writeWord sp a v], b.writeWord sp a v s.2)
  writeLong sp a v s := (s.1 ++ [.writeLong sp a v], b.writeLong sp a v s.2)

/-- A program of transactions through the interface alone: its answers in order, and the last state. -/
def AddressBus.runAll {σ : Type} (b : AddressBus σ) : List Instr → σ → List (Option Word) × σ
  | [], s => ([], s)
  | i :: is, s =>
    let x := b.run i s
    let y := b.runAll is x.2
    (x.1 :: y.1, y.2)

end Sys2Proof.Machine
end

