-- ==== Sys2Proof/Machine/Text.lean ====
section
/-! DEFINITION. The text form of transactions and of construction (30_encoding.md R72): reading a line, and writing one. -/

namespace Sys2Proof.Machine

/-- The value of a digit in a base up to sixteen, none for another character. -/
def digitValue (base : Nat) (c : Char) : Option Nat :=
  let v :=
    if '0' ≤ c ∧ c ≤ '9' then c.toNat - '0'.toNat
    else if 'A' ≤ c ∧ c ≤ 'F' then c.toNat - 'A'.toNat + 10
    else if 'a' ≤ c ∧ c ≤ 'f' then c.toNat - 'a'.toNat + 10
    else base
  if v < base then some v else none

/-- The value of the digits listed, `n` before them; `_` only groups digits (00_scope.md R8). -/
def digitsValue (base : Nat) : List Char → Nat → Option Nat
  | [], n => some n
  | '_' :: cs, n => digitsValue base cs n
  | c :: cs, n =>
    match digitValue base c with
    | some d => digitsValue base cs (n * base + d)
    | none => none

/-- 30_encoding.md R72: an integer literal, decimal or `0x` hexadecimal; a literal begins with a digit (log 19). -/
def literal : List Char → Option Nat
  | '0' :: 'x' :: c :: cs => if c = '_' then none else digitsValue 16 (c :: cs) 0
  | '0' :: 'x' :: [] => none
  | c :: cs => if c = '_' then none else digitsValue 10 (c :: cs) 0
  | [] => none

/-- A literal that fits the 32 bits of an address or a value (log 19). -/
def literal32 (cs : List Char) : Option Word :=
  match literal cs with
  | some n => if n < 2 ^ 32 then some (BitVec.ofNat 32 n) else none
  | none => none

/-- The pieces of a line: blanks separate, a comma is a piece of its own (log 19). `cur` holds the piece being read, last
character first. -/
def pieces : List Char → List Char → List (List Char)
  | [], cur => if cur = [] then [] else [cur.reverse]
  | c :: cs, cur =>
    let done := if cur = [] then [] else [cur.reverse]
    if c = ' ' then done ++ pieces cs []
    else if c = ',' then done ++ [[',']] ++ pieces cs []
    else pieces cs (c :: cur)

/-- 30_encoding.md R72: the names of an AddressSpace, long and short. -/
def spaceOfName (t : List Char) : Option AddressSpace :=
  if t = "SUPERVISOR_PROGRAM".toList ∨ t = "SP".toList then some .supervisorProgram
  else if t = "SUPERVISOR_DATA".toList ∨ t = "SD".toList then some .supervisorData
  else if t = "USER_PROGRAM".toList ∨ t = "UP".toList then some .userProgram
  else if t = "USER_DATA".toList ∨ t = "UD".toList then some .userData
  else none

/-- 30_encoding.md R69: a read by its mnemonic. -/
def readOfName (t : List Char) : Option (AddressSpace → Addr → Instr) :=
  if t = "READ_BYTE".toList then some .readByte
  else if t = "READ_WORD".toList then some .readWord
  else if t = "READ_LONG".toList then some .readLong
  else none

/-- 30_encoding.md R69: a write by its mnemonic. -/
def writeOfName (t : List Char) : Option (AddressSpace → Addr → Word → Instr) :=
  if t = "WRITE_BYTE".toList then some .writeByte
  else if t = "WRITE_WORD".toList then some .writeWord
  else if t = "WRITE_LONG".toList then some .writeLong
  else none

/-- 30_encoding.md R72: the event a line of text stands for, none where it has not one of the seven forms. -/
def parseLine (line : String) : Option Event :=
  match pieces line.toList [] with
  | [name, size] =>
    if name = "NEW".toList then (literal size).map .construct else none
  | [name, space, [','], addr] =>
    match readOfName name, spaceOfName space, literal32 addr with
    | some mk, some sp, some a => some (.request (encode (mk sp a)))
    | _, _, _ => none
  | [name, space, [','], addr, [','], value] =>
    match writeOfName name, spaceOfName space, literal32 addr, literal32 value with
    | some mk, some sp, some a, some v => some (.request (encode (mk sp a v)))
    | _, _, _, _ => none
  | _ => none

/-- The constant's name (10_state.md R22). -/
def spaceName (s : AddressSpace) : String :=
  match s.mode, s.segment with
  | .supervisor, .program => "SUPERVISOR_PROGRAM"
  | .supervisor, .data => "SUPERVISOR_DATA"
  | .user, .program => "USER_PROGRAM"
  | .user, .data => "USER_DATA"

/-- A 32-bit value as a `0x` literal of eight hexadecimal digits. -/
def hex32 (v : Word) : String :=
  let d := Nat.toDigits 16 v.toNat
  String.ofList (['0', 'x'] ++ List.replicate (8 - d.length) '0' ++ d)

/-- 30_encoding.md R72: the line that stands for an instruction. -/
def renderInstr : Instr → String
  | .readByte sp a => "READ_BYTE " ++ spaceName sp ++ ", " ++ hex32 a
  | .readWord sp a => "READ_WORD " ++ spaceName sp ++ ", " ++ hex32 a
  | .readLong sp a => "READ_LONG " ++ spaceName sp ++ ", " ++ hex32 a
  | .writeByte sp a v => "WRITE_BYTE " ++ spaceName sp ++ ", " ++ hex32 a ++ ", " ++ hex32 v
  | .writeWord sp a v => "WRITE_WORD " ++ spaceName sp ++ ", " ++ hex32 a ++ ", " ++ hex32 v
  | .writeLong sp a v => "WRITE_LONG " ++ spaceName sp ++ ", " ++ hex32 a ++ ", " ++ hex32 v

end Sys2Proof.Machine
end

