-- ==== Sys2Proof/Safety.lean ====
section
/-! DEFINITION. What claims are stated in terms of: the invariant of the state, the view that hides the page table, and the storage a history leaves. -/

namespace Sys2Proof.Machine

/-- What holds of every state a run can reach. -/
structure State.Inv (s : State) : Prop where
  /-- 00_scope.md R6 -/
  pageBits_le : s.pageBits ≤ maxPageBits
  /-- 10_state.md R17: a constructed instance has a legal `SIZE`. -/
  size_legal : s.life ≠ .unconstructed → 0 < s.size ∧ s.size ≤ maxSize
  /-- Storage exists only while the instance is live (60_exceptions.md R88, 70_reset_and_hazards.md R106). -/
  dead_empty : s.life ≠ .live → s.mem = [] ∧ s.pages = []
  /-- No history exists before construction (60_exceptions.md R88). -/
  unconstructed_history : s.life = .unconstructed → s.history = []
  /-- Only a live instance has a transaction in flight (70_reset_and_hazards.md R106, R107). -/
  dead_idle : s.life ≠ .live → s.inFlight = none
  /-- The storage is in its canonical form. -/
  mem_wf : s.mem.wf
  /-- 10_state.md R26: physical indices lie in [0, SIZE). -/
  mem_lt : ∀ c ∈ s.mem, c.1 < s.size
  /-- 10_state.md R28: a byte of an unallocated page is zero. -/
  mem_allocated : ∀ c ∈ s.mem, s.pg c.1 ∈ s.pages
  /-- Each allocated page is listed once, in rising order. -/
  pages_sorted : s.pages.Pairwise (· < ·)
  /-- 10_state.md R27: no page index above (SIZE - 1) >> PAGE_BITS is ever allocated. -/
  pages_le : ∀ g ∈ s.pages, g ≤ s.pg (s.size - 1)

/-- The state without the page table and the two open parameters (10_state.md R31): all that a caller, or a trace
observer, can tell. -/
def State.view (s : State) : State := { s with pages := [], pageBits := 0, readAllocates := false }

/-- What an answer looks like through the view. -/
def viewOutcome : Host.Outcome State Fault Refusal → Host.Outcome State Fault Refusal
  | .next s => .next s.view
  | .fault r => .fault r
  | .refused r => .refused r

/-- The byte at physical index `p` after one completed transaction, when it was `b` before: the constituent bytes of a
write in their order (20_memory.md R45). -/
def Record.after (size : Nat) (r : Record) (p : Nat) (b : Byte) : Byte :=
  if r.op.isWrite then
    (List.range r.op.width.bytes).foldl
      (fun acc i => if translate size (constituent r.addr i) = p then byteOf r.op.width r.data i else acc) b
  else b

/-- 20_memory.md R55: the byte the history leaves at `p`, that of the last completed write to it, zero if there is none. -/
def replay (size : Nat) (h : List Record) (p : Nat) : Byte :=
  h.foldl (fun b r => r.after size p b) 0#8

/-- The storage is what the history says (20_memory.md R55). -/
def State.Replays (s : State) : Prop :=
  s.life = .live → ∀ p, s.mem.read p = replay s.size s.history p

/-- A safe state: no request has been refused, so what is observed says something about the block (00_scope.md R12). -/
abbrev State.Safe (s : State) : Prop := s.Inv ∧ s.refused = false

end Sys2Proof.Machine
end

