-- ==== Sys2Proof/Certificates/Slice0/Obligations.lean ====
section
/-! DEFINITION. The statements about the block, for the provers. -/

section AddressSpaces

open Sys2Proof Sys2Proof.Machine

/-- 10_state.md R22: four values, each with its fixed function code; the codes 0, 3, 4 and 7 belong to none. -/
def Obligations.FunctionCodesOfAddressSpaces : Prop :=
  AddressSpace.supervisorProgram.fc = 6#3 ∧ AddressSpace.supervisorData.fc = 5#3 ∧
  AddressSpace.userProgram.fc = 2#3 ∧ AddressSpace.userData.fc = 1#3 ∧
  (∀ s : AddressSpace, s = .supervisorProgram ∨ s = .supervisorData ∨ s = .userProgram ∨ s = .userData) ∧
  [AddressSpace.supervisorProgram, .supervisorData, .userProgram, .userData].Nodup ∧
  (∀ s : AddressSpace, s.fc ∉ [0#3, 3#3, 4#3, 7#3]) ∧
  (∀ c : BitVec 3, c ∈ [0#3, 3#3, 4#3, 7#3] → AddressSpace.ofFc c = none)

/-- 40_address_space.md R75: equality is equality of both fields, equivalently of function codes, and an equivalence. -/
def Obligations.AddressSpaceEquality : Prop :=
  (∀ s t : AddressSpace, s.eq t = true ↔ s.mode = t.mode ∧ s.segment = t.segment) ∧
  (∀ s t : AddressSpace, s.eq t = true ↔ s.fc = t.fc) ∧
  (∀ s t : AddressSpace, s.eq t = true ↔ s = t)

/-- 40_address_space.md R76: the four debug texts. Three of them follow the pattern of the one the source spells (log 16). -/
def Obligations.DebugTextOfAddressSpaces : Prop :=
  AddressSpace.supervisorProgram.debug = "[Supervisor/Program]" ∧
  AddressSpace.supervisorData.debug = "[Supervisor/Data]" ∧
  AddressSpace.userProgram.debug = "[User/Program]" ∧
  AddressSpace.userData.debug = "[User/Data]"

end AddressSpaces

section Encoding

open Sys2Proof Sys2Proof.Machine

/-- 30_encoding.md R61 to R64, R69: the command word of each operation matches its row's match under the mask `0xC7`, and
its field holds the function code. The layout is the spec's decision D2. -/
def Obligations.CommandWordMatchesItsRow : Prop :=
  ∀ i : Instr,
    (encode i).cmd &&& 0xC7#8 =
      (match i.op with
        | .readByte => 0x04#8
        | .readWord => 0x05#8
        | .readLong => 0x06#8
        | .writeByte => 0x00#8
        | .writeWord => 0x01#8
        | .writeLong => 0x02#8) ∧
    (encode i).cmd.extractLsb' 3 3 = i.space.fc ∧
    (encode i).addr = i.addr ∧
    (∀ v, i.wdata? = some v → (encode i).wdata = v)

/-- 30_encoding.md R65 to R68, R70: the first failing check names the refusal; where none fails, the instruction is read
from the fields. -/
def Obligations.DecoderChecksInOrder : Prop :=
  ∀ r : Request,
    (r.cmd.extractLsb' 6 2 ≠ 0#2 → decode r = .error .reservedBits) ∧
    (r.cmd.extractLsb' 6 2 = 0#2 → r.cmd.extractLsb' 3 3 ∈ [0#3, 3#3, 4#3, 7#3] →
      decode r = .error .unrepresentableFunctionCode) ∧
    (r.cmd.extractLsb' 6 2 = 0#2 → r.cmd.extractLsb' 3 3 ∈ [1#3, 2#3, 5#3, 6#3] → r.cmd.extractLsb' 0 2 = 3#2 →
      decode r = .error .reservedSize) ∧
    (r.cmd.extractLsb' 6 2 = 0#2 → r.cmd.extractLsb' 3 3 ∈ [1#3, 2#3, 5#3, 6#3] → r.cmd.extractLsb' 0 2 ≠ 3#2 →
      ∃ i, decode r = .ok i ∧ i.addr = r.addr ∧ i.space.fc = r.cmd.extractLsb' 3 3 ∧
        i.op.isWrite = !r.cmd.getLsbD 2 ∧
        i.op.width.bytes = 2 ^ (r.cmd.extractLsb' 0 2).toNat ∧
        i.wdata? = (if r.cmd.getLsbD 2 then none else some r.wdata))

/-- Decode and encode agree in both directions: a request decodes to an instruction exactly when it is well-formed and is
that instruction's encoding but for the `wdata` a read ignores (30_encoding.md R61, R68, R69, R70; decision D2). -/
def Obligations.DecodeEncodeAgree : Prop :=
  (∀ i : Instr, decode (encode i) = .ok i ∧ (encode i).wellFormed = true ∧ (encode i).normalized = encode i) ∧
  (∀ (r : Request) (i : Instr), decode r = .ok i ↔ r.wellFormed = true ∧ r.normalized = encode i)

/-- 30_encoding.md R69: the legal command words are the 24 the rule lists one by one. -/
def Obligations.TwentyFourLegalCommandWords : Prop :=
  ∀ (c : Cmd) (a : Addr) (v : Word),
    (∃ i, decode ⟨c, a, v⟩ = .ok i) ↔
      c ∈ [0x08#8, 0x09#8, 0x0A#8, 0x0C#8, 0x0D#8, 0x0E#8] ++ [0x10#8, 0x11#8, 0x12#8, 0x14#8, 0x15#8, 0x16#8] ++
        [0x28#8, 0x29#8, 0x2A#8, 0x2C#8, 0x2D#8, 0x2E#8] ++ [0x30#8, 0x31#8, 0x32#8, 0x34#8, 0x35#8, 0x36#8]

/-- Words written out from 30_encoding.md R69 and the table of 95_test_vectors.md 2.4. -/
def Obligations.SampleWordsDecode : Prop :=
  decodeTableWord 8 0b00001100 = some (.readByte .userData 0#32) ∧
  decodeTableWord 8 0b00001101 = some (.readWord .userData 0#32) ∧
  decodeTableWord 8 0b00110110 = some (.readLong .supervisorProgram 0#32) ∧
  decodeTableWord 8 0b00001000 = some (.writeByte .userData 0#32 0#32) ∧
  decodeTableWord 8 0b00101001 = some (.writeWord .supervisorData 0#32 0#32) ∧
  decodeTableWord 8 0b00010010 = some (.writeLong .userProgram 0#32 0#32) ∧
  decode ⟨0x0B#8, 0#32, 0#32⟩ = .error .reservedSize ∧
  decode ⟨0x03#8, 0#32, 0#32⟩ = .error .unrepresentableFunctionCode ∧
  decode ⟨0x4C#8, 0#32, 0#32⟩ = .error .reservedBits

/-- 30_encoding.md R72: lines of text from 95_test_vectors.md Part 3 and the events they stand for. How a line is cut
into pieces is the model's choice (log 19). -/
def Obligations.TextLinesStandForEvents : Prop :=
  parseLine "NEW 0x1000000" = some (.construct 0x1000000) ∧
  parseLine "NEW 3000" = some (.construct 3000) ∧
  parseLine "WRITE_LONG SD, 0x1000, 0x12345678" = some (.request ⟨0x2A#8, 0x1000#32, 0x12345678#32⟩) ∧
  parseLine "READ_WORD UD, 0x1001" = some (.request ⟨0x0D#8, 0x1001#32, 0#32⟩) ∧
  parseLine "READ_LONG SUPERVISOR_PROGRAM, 0x1000" = some (.request ⟨0x36#8, 0x1000#32, 0#32⟩) ∧
  parseLine "WRITE_BYTE UD, 2999, 0x77" = some (.request ⟨0x08#8, 0xBB7#32, 0x77#32⟩) ∧
  parseLine "READ_BYTE XX, 0" = none

end Encoding

section Translation

open Sys2Proof Sys2Proof.Machine

/-- 20_memory.md R34: mask to the bus, reduce onto the declared size; with the full size the reduction is the identity,
and addresses one `SIZE` apart on the bus name the same byte. The reduction `mod SIZE` is decision D8 (log 12). -/
def Obligations.TranslationOfAddresses : Prop :=
  ∀ (size : Nat) (a : Addr), 0 < size →
    translate size a = a.toNat % 2 ^ 24 % size ∧ translate size a < size ∧
    translate maxSize a = a.toNat % 2 ^ 24 ∧
    (∀ b : Addr, a.toNat < 2 ^ 24 → b.toNat = a.toNat + size → b.toNat < 2 ^ 24 → translate size b = translate size a)

/-- 20_memory.md R37: for a power of two, translation is masking by `min(ADDRBUS_MASK, SIZE - 1)`. -/
def Obligations.PowerOfTwoSizeMasks : Prop :=
  ∀ (k : Nat) (a : Addr), k ≤ 24 → translate (2 ^ k) a = a.toNat &&& min addrBusMask.toNat (2 ^ k - 1)

/-- 20_memory.md R43: constituent byte `i` is translated on its own, so it wraps at the top of the bus and at `SIZE`.
The second masking is decision D7 (log 11). -/
def Obligations.ConstituentBytesWrap : Prop :=
  ∀ (s : State) (a : Addr) (i : Nat),
    s.physOf a i = (a.toNat % 2 ^ 24 + i) % 2 ^ 24 % s.size ∧ (constituent a i).toNat = (a.toNat + i) % 2 ^ 32

/-- 20_memory.md R36: every transaction at `a` is the transaction at `a & ADDRBUS_MASK`, but for the address the history
records, which is the one supplied. -/
def Obligations.MaskedAddressAliases : Prop :=
  ∀ (i : Instr) (s : State), s.Accepting →
    ∃ (t : State) (d : Word),
      exec i s = .next { t with history := s.history ++ [⟨i.op, i.space, i.addr, d⟩] } ∧
      exec (i.withAddr (i.addr &&& addrBusMask)) s =
        .next { t with history := s.history ++ [⟨i.op, i.space, i.addr &&& addrBusMask, d⟩] }

/-- 20_memory.md R45: when two constituent bytes of one access name the same byte of storage; with a power of two of at
least 4 they never do. -/
def Obligations.CollidingConstituentBytes : Prop :=
  ∀ (s : State) (a : Addr) (i j : Nat), 0 < s.size → i < j → j < 4 →
    (s.physOf a i = s.physOf a j ↔
      if a.toNat % 2 ^ 24 + i < 2 ^ 24 ∧ 2 ^ 24 ≤ a.toNat % 2 ^ 24 + j then s.size ∣ 2 ^ 24 - (j - i)
      else s.size ∣ j - i) ∧
    (∀ k, s.size = 2 ^ k → 2 ≤ k → k ≤ 24 → s.physOf a i ≠ s.physOf a j)

/-- 20_memory.md R38: page index and offset are quotient and remainder, and give the index back. -/
def Obligations.PageIndexAndOffset : Prop :=
  ∀ (s : State) (p : Nat),
    s.pg p = p / 2 ^ s.pageBits ∧ s.off p = p % 2 ^ s.pageBits ∧ p = (s.pg p <<< s.pageBits) ||| s.off p

end Translation

section PageTable

open Sys2Proof Sys2Proof.Machine

/-- 20_memory.md R40: a byte of an allocated page is read from it and nothing changes; a byte of an unallocated page reads
zero, and when `READ_ALLOCATES` holds its page is allocated zero-filled, every other page as before. -/
def Obligations.ByteReadThroughPageTable : Prop :=
  ∀ (s : State) (p : Nat),
    (∀ page, s.lookup (s.pg p) = some page → s.byteRead p = (page.read (s.off p), s)) ∧
    (s.lookup (s.pg p) = none → s.readAllocates = false → s.byteRead p = (0#8, s)) ∧
    (s.lookup (s.pg p) = none → s.readAllocates = true →
      ∃ t, s.byteRead p = (0#8, t) ∧ t = { s with mem := t.mem, pages := t.pages } ∧
        t.lookup (s.pg p) = some [] ∧ ∀ g, g ≠ s.pg p → t.lookup g = s.lookup g) ∧
    (s.Inv → p < s.size → (s.byteRead p).1 = s.mem.read p)

/-- 20_memory.md R41: exactly one byte of `M` changes, and exactly one page may be allocated. -/
def Obligations.ByteWriteStoresOneByte : Prop :=
  ∀ (s : State) (p : Nat) (v : Byte), s.Inv → s.life = .live → p < s.size →
    ∃ m ps, s.byteWrite p v = { s with mem := m, pages := ps } ∧
      (∀ q, m.read q = if q = p then v else s.mem.read q) ∧
      (∀ g, g ∈ ps ↔ g ∈ s.pages ∨ g = s.pg p)

/-- 10_state.md R28: the storage is what the page table holds, zero where no page is allocated. -/
def Obligations.StorageIsThePageTable : Prop :=
  ∀ (s : State) (p : Nat), s.Inv →
    s.mem.read p = match s.lookup (s.pg p) with
      | some page => page.read (s.off p)
      | none => 0#8

/-- 10_state.md R30: a newly allocated page is there, and holds zero in every byte, in every state. -/
def Obligations.NewPageHoldsZeros : Prop :=
  ∀ (s : State) (g : Nat), ∃ page, (s.allocate g).lookup g = some page ∧ ∀ o, page.read o = 0#8

/-- 10_state.md R29: a transaction keeps every allocated page, with all its bytes but those a write stores to. -/
def Obligations.PagesStayAllocated : Prop :=
  ∀ (i : Instr) (s : State), s.Inv → ∃ t, exec i s = .next t ∧
    ∀ g page, s.lookup g = some page → ∃ page', t.lookup g = some page' ∧
      ∀ p, s.pg p = g → (i.op.isWrite = false ∨ ∀ j < i.op.width.bytes, s.physOf i.addr j ≠ p) →
        page'.read (s.off p) = page.read (s.off p)

/-- 10_state.md R31, 20_memory.md R46: the page table, `PAGE_BITS` and `READ_ALLOCATES` are invisible. Two states that
agree on everything else answer alike for ever, whatever their caller does. -/
def Obligations.PageTableIsInvisible : Prop :=
  ∀ (n : Nat) (s t : State), s.Inv → t.Inv → s.view = t.view →
    viewOutcome (Host.Core.run Sys2Proof.core n s) = viewOutcome (Host.Core.run Sys2Proof.core n t)

end PageTable

section Transactions

open Sys2Proof Sys2Proof.Machine

/-- 41_read_transactions.md R78, R79: `READ_BYTE` completes with the byte at `T(a)` zero-extended and one record; nothing
else changes but, when `READ_ALLOCATES`, the byte's page is allocated. -/
def Obligations.ReadByteResult : Prop :=
  ∀ (s : State) (sp : AddressSpace) (a : Addr), s.Inv → s.Accepting →
    ∃ ps, exec (.readByte sp a) s = .next { s with
        pages := ps
        history := s.history ++ [⟨.readByte, sp, a, (s.mem.read (s.phys a)).setWidth 32⟩]
        response := .rdata ((s.mem.read (s.phys a)).setWidth 32) } ∧
      (∀ g, g ∈ ps ↔ g ∈ s.pages ∨ (s.readAllocates = true ∧ g = s.pg (s.phys a)))

/-- 41_read_transactions.md R78, R80: `READ_WORD`, big-endian, any alignment. -/
def Obligations.ReadWordResult : Prop :=
  ∀ (s : State) (sp : AddressSpace) (a : Addr), s.Inv → s.Accepting →
    ∃ ps, exec (.readWord sp a) s = .next { s with
        pages := ps
        history := s.history ++
          [⟨.readWord, sp, a, (s.mem.read (s.phys a) ++ s.mem.read (s.phys (a + 1#32))).setWidth 32⟩]
        response := .rdata ((s.mem.read (s.phys a) ++ s.mem.read (s.phys (a + 1#32))).setWidth 32) } ∧
      (∀ g, g ∈ ps ↔ g ∈ s.pages ∨
        (s.readAllocates = true ∧ (g = s.pg (s.phys a) ∨ g = s.pg (s.phys (a + 1#32)))))

/-- 41_read_transactions.md R78, R81: `READ_LONG`, big-endian, any alignment. -/
def Obligations.ReadLongResult : Prop :=
  ∀ (s : State) (sp : AddressSpace) (a : Addr), s.Inv → s.Accepting →
    ∃ (ps : List Nat) (v : Word), v = s.mem.read (s.phys a) ++ s.mem.read (s.phys (a + 1#32)) ++
        s.mem.read (s.phys (a + 2#32)) ++ s.mem.read (s.phys (a + 3#32)) ∧
      exec (.readLong sp a) s = .next { s with
        pages := ps
        history := s.history ++ [⟨.readLong, sp, a, v⟩]
        response := .rdata v } ∧
      (∀ g, g ∈ ps ↔ g ∈ s.pages ∨ (s.readAllocates = true ∧ (g = s.pg (s.phys a) ∨ g = s.pg (s.phys (a + 1#32)) ∨
        g = s.pg (s.phys (a + 2#32)) ∨ g = s.pg (s.phys (a + 3#32)))))

/-- 42_write_transactions.md R82, R83: `WRITE_BYTE` completes with the low byte of its data at `T(a)`, every other byte as
before, that byte's page allocated, one record of the data as supplied, and nothing else changed. That bits 31:8 are
ignored is decision D5 (log 10). -/
def Obligations.WriteByteResult : Prop :=
  ∀ (s : State) (sp : AddressSpace) (a : Addr) (v : Word), s.Inv → s.Accepting →
    ∃ m ps, exec (.writeByte sp a v) s = .next { s with
        mem := m
        pages := ps
        history := s.history ++ [⟨.writeByte, sp, a, v⟩]
        response := .written } ∧
      (∀ p, m.read p = if p = s.phys a then v.extractLsb' 0 8 else s.mem.read p) ∧
      (∀ g, g ∈ ps ↔ g ∈ s.pages ∨ g = s.pg (s.phys a))

/-- 42_write_transactions.md R82, R84: `WRITE_WORD`, big-endian, any alignment. Which byte stays where the two name one
index is decision D20 (log 14); that bits 31:16 are ignored is D5 (log 10). -/
def Obligations.WriteWordResult : Prop :=
  ∀ (s : State) (sp : AddressSpace) (a : Addr) (v : Word), s.Inv → s.Accepting →
    ∃ m ps, exec (.writeWord sp a v) s = .next { s with
        mem := m
        pages := ps
        history := s.history ++ [⟨.writeWord, sp, a, v⟩]
        response := .written } ∧
      (∀ p, m.read p =
        if p = s.phys (a + 1#32) then v.extractLsb' 0 8
        else if p = s.phys a then v.extractLsb' 8 8
        else s.mem.read p) ∧
      (∀ g, g ∈ ps ↔ g ∈ s.pages ∨ g = s.pg (s.phys a) ∨ g = s.pg (s.phys (a + 1#32)))

/-- 42_write_transactions.md R82, R85: `WRITE_LONG`, big-endian, any alignment. Which byte stays where several name one
index is decision D20 (log 14). -/
def Obligations.WriteLongResult : Prop :=
  ∀ (s : State) (sp : AddressSpace) (a : Addr) (v : Word), s.Inv → s.Accepting →
    ∃ m ps, exec (.writeLong sp a v) s = .next { s with
        mem := m
        pages := ps
        history := s.history ++ [⟨.writeLong, sp, a, v⟩]
        response := .written } ∧
      (∀ p, m.read p =
        if p = s.phys (a + 3#32) then v.extractLsb' 0 8
        else if p = s.phys (a + 2#32) then v.extractLsb' 8 8
        else if p = s.phys (a + 1#32) then v.extractLsb' 16 8
        else if p = s.phys a then v.extractLsb' 24 8
        else s.mem.read p) ∧
      (∀ g, g ∈ ps ↔ g ∈ s.pages ∨ g = s.pg (s.phys a) ∨ g = s.pg (s.phys (a + 1#32)) ∨
        g = s.pg (s.phys (a + 2#32)) ∨ g = s.pg (s.phys (a + 3#32)))

/-- 20_memory.md R55, R56: the read that follows a write at the same address and width returns the value written, under
any two AddressSpaces, a fetch after a store among them. A word or long needs its constituent bytes to name different
bytes of storage (20_memory.md R45). -/
def Obligations.WriteThenReadReturnsValue : Prop :=
  ∀ (s : State) (sp sp' : AddressSpace) (a : Addr) (v : Word), s.Inv → s.Accepting →
    (∃ t u, exec (.writeByte sp a v) s = .next t ∧ exec (.readByte sp' a) t = .next u ∧
      u.response = .rdata ((v.extractLsb' 0 8).setWidth 32)) ∧
    (s.physOf a 0 ≠ s.physOf a 1 →
      ∃ t u, exec (.writeWord sp a v) s = .next t ∧ exec (.readWord sp' a) t = .next u ∧
        u.response = .rdata ((v.extractLsb' 0 16).setWidth 32)) ∧
    ((∀ i j, i < j → j < 4 → s.physOf a i ≠ s.physOf a j) →
      ∃ t u, exec (.writeLong sp a v) s = .next t ∧ exec (.readLong sp' a) t = .next u ∧ u.response = .rdata v)

/-- 20_memory.md R48: the narrower reads of a long or word just written see its big-endian parts, where its constituent
bytes name different bytes of storage (R48 asks `SIZE >= 4` only; see log 14 for the sizes where R45 says otherwise). -/
def Obligations.NarrowReadsOfWideWrite : Prop :=
  ∀ (s : State) (sp sp' : AddressSpace) (a : Addr) (v : Word), s.Inv → s.Accepting →
    ((∀ i j, i < j → j < 4 → s.physOf a i ≠ s.physOf a j) →
      ∃ t, exec (.writeLong sp a v) s = .next t ∧
        (∀ i < 4, ∃ u, exec (.readByte sp' (constituent a i)) t = .next u ∧
          u.response = .rdata ((v.extractLsb' (8 * (3 - i)) 8).setWidth 32)) ∧
        (∃ u, exec (.readWord sp' a) t = .next u ∧ u.response = .rdata ((v.extractLsb' 16 16).setWidth 32)) ∧
        (∃ u, exec (.readWord sp' (constituent a 2)) t = .next u ∧
          u.response = .rdata ((v.extractLsb' 0 16).setWidth 32))) ∧
    (s.physOf a 0 ≠ s.physOf a 1 →
      ∃ t, exec (.writeWord sp a v) s = .next t ∧
        ∀ i < 2, ∃ u, exec (.readByte sp' (constituent a i)) t = .next u ∧
          u.response = .rdata ((v.extractLsb' (8 * (1 - i)) 8).setWidth 32))

/-- 20_memory.md R52: a read leaves the storage and answers the same when repeated; a write repeated leaves the storage
one write leaves. -/
def Obligations.RepeatedTransactionIsIdempotent : Prop :=
  ∀ (i : Instr) (s : State), s.Inv → s.Accepting →
    ∃ t u, exec i s = .next t ∧ exec i t = .next u ∧ u.mem = t.mem ∧ u.response = t.response ∧
      (i.op.isWrite = false → t.mem = s.mem)

/-- 20_memory.md R53: the AddressSpace of a transaction changes neither whether it completes nor which bytes it reaches,
only its record. -/
def Obligations.AddressSpaceGatesNothing : Prop :=
  ∀ (i : Instr) (sp : AddressSpace) (s : State), s.Accepting →
    ∃ (t : State) (d : Word),
      exec i s = .next { t with history := s.history ++ [⟨i.op, i.space, i.addr, d⟩] } ∧
      exec (i.withSpace sp) s = .next { t with history := s.history ++ [⟨i.op, sp, i.addr, d⟩] }

/-- 60_exceptions.md R86, 20_memory.md R35: no transaction in any state faults, and whatever its address, width,
alignment, AddressSpace and data, one presented to an accepting instance completes: the mark as it was, a read's value
or a write's completion as the answer. -/
def Obligations.NoAccessTimeException : Prop :=
  ∀ (i : Instr) (s : State),
    (∃ t, exec i s = .next t) ∧
    (s.Accepting → ∃ t, exec i s = .next t ∧ t.refused = s.refused ∧ t.life = .live ∧
      (i.op.isWrite = true → t.response = .written) ∧ (i.op.isWrite = false → ∃ v, t.response = .rdata v))

/-- 41_read_transactions.md R78, 42_write_transactions.md R82, 70_reset_and_hazards.md R107, 20_memory.md R58: a
transaction that is not accepted sets the refusal mark and changes nothing else; the answer names the reason. Which
reason is named where two hold is the model's choice (log 17). -/
def Obligations.UnacceptedTransactionChangesNothing : Prop :=
  ∀ (i : Instr) (s : State),
    (s.life = .unconstructed → exec i s = .next { s with refused := true, response := .refused .unconstructed }) ∧
    (s.life = .released → exec i s = .next { s with refused := true, response := .refused .released }) ∧
    (s.life = .live → s.inFlight ≠ none →
      exec i s = .next { s with refused := true, response := .refused .overlapping })

/-- 10_state.md R33: the block never reads its history; a transaction adds to it what it adds to any other. -/
def Obligations.HistoryIsNeverRead : Prop :=
  ∀ (i : Instr) (s : State) (h : List Record),
    ∃ (t : State) (d : List Record),
      exec i s = .next { t with history := s.history ++ d } ∧
      exec i { s with history := h } = .next { t with history := h ++ d }

/-- 20_memory.md R57, 95_test_vectors.md S7: the machine is the contract's implementation. An accepted transaction leaves
the state the six-operation interface of PagedMem leaves, and answers what it answers. -/
def Obligations.MachineImplementsTheBus : Prop :=
  ∀ (i : Instr) (s : State), s.Inv → s.Accepting →
    exec i s = .next { (pagedMem.run i s).2 with
      response := match (pagedMem.run i s).1 with
        | some v => .rdata v
        | none => .written }

/-- 60_exceptions.md R99: a program behind a logging decorator, of any implementation of the contract, sees what it sees
without it, and the log is the program. -/
def Obligations.LoggingIsTransparent : Prop :=
  ∀ (σ : Type) (b : AddressBus σ) (is log : List Instr) (s : σ),
    (b.logging.runAll is (log, s)).1 = (b.runAll is s).1 ∧
    (b.logging.runAll is (log, s)).2 = (log ++ is, (b.runAll is s).2)

end Transactions

section Steps

open Sys2Proof Sys2Proof.Machine

/-- A step runs the decoded instruction: a request that decodes is exec of its instruction at the state that no longer
lists it; one whose caller does not wait stands in flight once it is accepted, and its completion is exec of that
instruction, which then is in flight no more (30_encoding.md R59, 20_memory.md R51). The list of events, and the two steps
of a transaction whose caller does not wait, are the model's (log 2, log 3). -/
def Obligations.StepRunsDecodedInstruction : Prop :=
  ∀ (s : State) (r : Request) (i : Instr) (rest : List Event), decode r = .ok i → s.refused = false →
    (s.pending = .request r :: rest → step s = exec i { s with pending := rest }) ∧
    (s.pending = .issue r :: rest → s.Accepting →
      step s = .next { s with pending := rest, inFlight := some i, response := .nothing }) ∧
    (s.pending = .complete :: rest → s.inFlight = some i →
      step s = exec i { s with pending := rest, inFlight := none })

/-- 20_memory.md R51: a transaction whose caller does not wait, issued and then completed, leaves what the same request of
a caller that waits leaves. The two events are the model's (log 3). -/
def Obligations.IssuedTransactionCompletesAsWaitedOne : Prop :=
  ∀ (s : State) (r : Request) (rest : List Event), s.Accepting → s.refused = false → r.wellFormed = true →
    s.pending = .issue r :: .complete :: rest →
    ∃ i t, decode r = .ok i ∧ exec i { s with pending := rest } = .next t ∧
      Host.Core.run Sys2Proof.core 2 s = .next t

/-- 30_encoding.md R65 to R67: a request that spells no operation, waited for or not, changes no byte and sets the mark.
The answer names the decoder's reason; that it does so before any other reason, on an instance that is unconstructed,
released or busy as well, is the model's choice (log 17): 30_encoding.md R70 orders the decoder's reasons only. -/
def Obligations.UndecodableRequestIsRefused : Prop :=
  ∀ (s : State) (r : Request) (rest : List Event), r.wellFormed = false → s.refused = false →
    (s.pending = .request r :: rest ∨ s.pending = .issue r :: rest) →
    ∃ e, decode r = .error e ∧
      step s = .next { s with pending := rest, refused := true, response := .refused (.undecodable e) }

/-- 70_reset_and_hazards.md R106, R107: a legal request, waited for or not, to an instance that is unconstructed or
released is refused at once and changes nothing but the mark. When a request whose caller does not wait is judged is the
model's choice (log 3), and so is the name in the answer (log 17). -/
def Obligations.RequestOutsideTheSessionIsRefused : Prop :=
  ∀ (s : State) (r : Request) (rest : List Event), s.life ≠ .live → s.refused = false → r.wellFormed = true →
    (s.pending = .request r :: rest ∨ s.pending = .issue r :: rest) →
    step s = .next { s with
      pending := rest
      refused := true
      response := .refused (if s.life = .unconstructed then .unconstructed else .released) }

/-- 20_memory.md R58: a transaction issued while another is in flight is refused and changes nothing but the mark. -/
def Obligations.OverlappingTransactionIsRefused : Prop :=
  ∀ (s : State) (r : Request) (rest : List Event), s.life = .live → s.inFlight ≠ none → s.refused = false →
    r.wellFormed = true → (s.pending = .request r :: rest ∨ s.pending = .issue r :: rest) →
    step s = .next { s with pending := rest, refused := true, response := .refused .overlapping }

/-- 00_scope.md R12, 92_eei_decisions.md D4: the mark is kept for the rest of the run, and the run does not continue: with
the mark set no event is taken any more, so every state a run has gone on from is unmarked. That the run stops by a refusal
of the step, and at every event, is the model's reading of D4 (log 1). -/
def Obligations.RefusalMarkEndsTheRun : Prop :=
  (∀ (s : State) (e : Event) (rest : List Event), s.refused = true → s.pending = e :: rest →
    step s = .refused .runRefused) ∧
  (∀ (m n : Nat) (s t : State), m < n → Host.Core.run Sys2Proof.core n s = .next t →
    ∃ u, Host.Core.run Sys2Proof.core m s = .next u ∧ u.refused = false)

/-- 70_reset_and_hazards.md R101, 60_exceptions.md R87, R88: `NEW(size)` raises its error, with the rejected size, and
leaves everything as it was, or leaves a fresh instance of that size. The bound is decision D9 and the codes are D15
(log 13). That a failed construction leaves an instance that stood, and that the new one starts with the mark set where a
transaction was in flight on the one it replaces, is the model's (log 4). -/
def Obligations.ConstructionOutcomes : Prop :=
  ∀ (s : State) (n : Nat) (rest : List Event), s.refused = false → s.pending = .construct n :: rest →
    (n = 0 → step s = .next { s with pending := rest, response := .constructError .sizeZero 0 }) ∧
    (2 ^ 24 < n → step s = .next { s with pending := rest, response := .constructError .sizeTooLarge n }) ∧
    (0 < n → n ≤ 2 ^ 24 → step s = .next
      { size := n, pageBits := s.pageBits, readAllocates := s.readAllocates, mem := [], pages := [], life := .live,
        history := [], refused := s.inFlight.isSome, inFlight := none, response := .constructed, pending := rest }) ∧
    ConstructReason.sizeZero.code = 1 ∧ ConstructReason.sizeTooLarge.code = 2

/-- 70_reset_and_hazards.md R103: after construction every read of every width at every address returns zero. -/
def Obligations.FreshInstanceReadsZero : Prop :=
  ∀ (p : Params) (i : Instr), p.wellFormed = true → i.op.isWrite = false →
    ∃ t, exec i (State.fresh p) = .next t ∧ t.response = .rdata 0#32 ∧ t.mem = []

/-- 70_reset_and_hazards.md R104: the configuration keeps its construction values for the session. The statement holds of
every step but a construction: that a release, and what follows it, leaves `SIZE` as well is the model's choice (log 5). -/
def Obligations.ConfigurationIsFixedInSession : Prop :=
  ∀ (s t : State) (e : Event) (rest : List Event), s.pending = e :: rest → (∀ n, e ≠ .construct n) → step s = .next t →
    t.size = s.size ∧ t.pageBits = s.pageBits ∧ t.readAllocates = s.readAllocates

/-- 70_reset_and_hazards.md R106: release frees all page storage together and moves the instance to `Released`; every
transaction addressed to it is then refused (R107, decision D19). What becomes of a transaction in flight, refused by the
release itself, is the model's choice (log 5), and so is the name of the later refusals (log 17); with the mark set no
release is taken (log 1). -/
def Obligations.ReleaseEndsTheSession : Prop :=
  ∀ (s : State) (rest : List Event), s.life = .live → s.refused = false → s.pending = .release :: rest →
    ∃ t, step s = .next t ∧ t.life = .released ∧ t.mem = [] ∧ t.pages = [] ∧ (∀ g, t.lookup g = none) ∧
      t.inFlight = none ∧ (t.refused = true ↔ s.inFlight ≠ none) ∧
      (∀ i, exec i t = .next { t with refused := true, response := .refused .released })

end Steps

section Invariants

open Sys2Proof Sys2Proof.Machine

/-- The invariant holds of every fresh instance, of `State.reset`, and before construction; a fresh instance's storage is
what its empty history says. The configuration of `State.reset` is the model's choice (log 9). -/
def Obligations.FreshStatesMeetTheInvariant : Prop :=
  (∀ p : Params, p.wellFormed = true → (State.fresh p).Inv ∧ (State.fresh p).Replays) ∧
  State.reset.Inv ∧ State.reset.Replays ∧
  (∀ (b : Nat) (r : Bool), b ≤ 24 → (State.unconstructed b r).Inv)

/-- Every step keeps the invariant: a legal size and page size, storage only while live, canonical and inside `SIZE`, no
byte outside an allocated page, the allocated pages inside the instance, a transaction in flight only while live
(10_state.md R17, R26, R27, R28; 60_exceptions.md R88; 70_reset_and_hazards.md R106, R107). -/
def Obligations.StepKeepsTheInvariant : Prop :=
  ∀ s t : State, s.Inv → step s = .next t → t.Inv

/-- 20_memory.md R55: every step keeps the storage equal to what the history says, each byte that of the last completed
write to it, or zero. -/
def Obligations.StorageFollowsTheHistory : Prop :=
  ∀ s t : State, s.Inv → s.Replays → step s = .next t → t.Replays

/-- 70_reset_and_hazards.md R110: a caller that constructs, issues one transaction at a time and uses only the legal
command words has every one of them completed: no mark, one record each, the instance live to the end. -/
def Obligations.ContractIsSufficient : Prop :=
  ∀ (s : State) (rs : List Request), s.Inv → s.Accepting → s.refused = false →
    s.pending = rs.map .request → (∀ r ∈ rs, r.wellFormed = true) →
    ∃ t, Host.Core.run Sys2Proof.core rs.length s = .next t ∧ t.Safe ∧ t.Accepting ∧ t.pending = [] ∧
      t.history.length = s.history.length + rs.length ∧ t.history.take s.history.length = s.history

end Invariants
end

