-- ==== Sys2Proof/Laws/Decode.lean ====
section
/-! SUPPORT. The laws of the fields a request is decoded from. -/

namespace Sys2Proof

/-- The function code of an AddressSpace stands for it. -/
@[simp] theorem AddressSpace.ofFc_fc (s : AddressSpace) : AddressSpace.ofFc s.fc = some s := by
  rcases s with ⟨_ | _, _ | _⟩ <;> rfl

/-- A function code stands for at most one AddressSpace, the one that has it. -/
theorem AddressSpace.ofFc_eq_some {c : BitVec 3} {s : AddressSpace} :
    AddressSpace.ofFc c = some s ↔ c = s.fc := by
  rcases s with ⟨_ | _, _ | _⟩ <;> revert c <;> decide

@[simp] theorem Width.ofSz_sz (w : Width) : Width.ofSz w.sz = some w := by cases w <;> rfl

theorem Width.ofSz_eq_some {z : BitVec 2} {w : Width} : Width.ofSz z = some w ↔ z = w.sz := by
  cases w <;> revert z <;> decide

/-! The four fields of a command word of the layout (30_encoding.md R61). -/

@[simp] theorem commandWord_res (sp : AddressSpace) (rw : BitVec 1) (w : Width) :
    (commandWord sp rw w).extractLsb' 6 2 = 0#2 := by
  rcases sp with ⟨_ | _, _ | _⟩ <;> cases w <;> revert rw <;> decide

@[simp] theorem commandWord_fc (sp : AddressSpace) (rw : BitVec 1) (w : Width) :
    (commandWord sp rw w).extractLsb' 3 3 = sp.fc := by
  rcases sp with ⟨_ | _, _ | _⟩ <;> cases w <;> revert rw <;> decide

@[simp] theorem commandWord_rw (sp : AddressSpace) (rw : BitVec 1) (w : Width) :
    (commandWord sp rw w)[2] = rw[0] := by
  rcases sp with ⟨_ | _, _ | _⟩ <;> cases w <;> revert rw <;> decide

@[simp] theorem commandWord_sz (sp : AddressSpace) (rw : BitVec 1) (w : Width) :
    (commandWord sp rw w).extractLsb' 0 2 = w.sz := by
  rcases sp with ⟨_ | _, _ | _⟩ <;> cases w <;> revert rw <;> decide

@[simp] theorem Request.normalized_cmd (r : Request) : r.normalized.cmd = r.cmd := by
  unfold Request.normalized; split <;> rfl

@[simp] theorem Request.normalized_addr (r : Request) : r.normalized.addr = r.addr := by
  unfold Request.normalized; split <;> rfl

/-- The decoder reads an instruction exactly when its three checks pass, and then from the four fields. -/
theorem decode_eq_ok {r : Request} {i : Instr} : decode r = .ok i ↔
    ∃ sp w, r.cmd.extractLsb' 6 2 = 0#2 ∧ r.cmd.extractLsb' 3 3 = sp.fc ∧ r.cmd.extractLsb' 0 2 = w.sz ∧
      i = Instr.ofFields (r.cmd.getLsbD 2) w sp r.addr r.wdata := by
  unfold decode
  split
  · next h => simp [h]
  · next h =>
    have h0 : r.cmd.extractLsb' 6 2 = 0#2 := not_not.1 h
    cases hs : AddressSpace.ofFc (r.cmd.extractLsb' 3 3) with
    | none =>
      refine ⟨by simp, ?_⟩
      rintro ⟨sp, w, _, h2, _⟩
      rw [AddressSpace.ofFc_eq_some.2 h2] at hs
      cases hs
    | some sp =>
      have hs' := AddressSpace.ofFc_eq_some.1 hs
      cases hw : Width.ofSz (r.cmd.extractLsb' 0 2) with
      | none =>
        refine ⟨by simp, ?_⟩
        rintro ⟨_, w, _, _, h3, _⟩
        rw [Width.ofSz_eq_some.2 h3] at hw
        cases hw
      | some w =>
        have hw' := Width.ofSz_eq_some.1 hw
        constructor
        · intro h
          exact ⟨sp, w, h0, hs', hw', (Except.ok.inj h).symm⟩
        · rintro ⟨sp', w', _, h2, h3, rfl⟩
          have e1 : sp = sp' := Option.some.inj (hs.symm.trans (AddressSpace.ofFc_eq_some.2 h2))
          have e2 : w = w' := Option.some.inj (hw.symm.trans (Width.ofSz_eq_some.2 h3))
          rw [e1, e2]

end Sys2Proof
end

