-- ==== Sys2Proof/Laws/Memory.lean ====
section
/-! SUPPORT. The laws of the byte storage and of the list of allocated pages. -/

namespace Sys2Proof.Machine

theorem Memory.wf_nil : Memory.wf [] := ⟨List.Pairwise.nil, by simp⟩

theorem Memory.wf_tail {c : Host.Cell} {m : Memory} (h : Memory.wf (c :: m)) : Memory.wf m :=
  ⟨(List.pairwise_cons.1 h.1).2, fun d hd => h.2 d (List.mem_cons_of_mem _ hd)⟩

@[simp] theorem Memory.read_nil (p : Nat) : Memory.read [] p = 0#8 := rfl

/-- An index below every listed one reads zero. -/
theorem Memory.read_of_lt {m : Memory} {p : Nat} (h : ∀ c ∈ m, p < c.1) : m.read p = 0#8 := by
  induction m with
  | nil => rfl
  | cons c m ih =>
    have hc := h c (List.mem_cons_self ..)
    have : p ≠ c.1 := by omega
    simp only [Memory.read, this, if_false]
    exact ih fun d hd => h d (List.mem_cons_of_mem _ hd)

theorem Memory.head_lt {c : Host.Cell} {m : Memory} (h : Memory.wf (c :: m)) : ∀ d ∈ m, c.1 < d.1 :=
  (List.pairwise_cons.1 h.1).1

/-- A listed byte is what its index reads as. -/
theorem Memory.read_of_mem {m : Memory} (h : m.wf) {c : Host.Cell} (hc : c ∈ m) : m.read c.1 = c.2 := by
  induction m with
  | nil => cases hc
  | cons d m ih =>
    rcases List.mem_cons.1 hc with rfl | hm
    · simp [Memory.read]
    · have := Memory.head_lt h c hm
      have hne : c.1 ≠ d.1 := by omega
      simp only [Memory.read, hne, if_false]
      exact ih (Memory.wf_tail h) hm

/-- An index that reads as other than zero is listed. -/
theorem Memory.mem_of_read {m : Memory} {p : Nat} (h : m.read p ≠ 0#8) : (p, m.read p) ∈ m := by
  induction m with
  | nil => simp at h
  | cons d m ih =>
    by_cases hp : p = d.1
    · subst hp; simp [Memory.read]
    · simp only [Memory.read, hp, if_false] at h ⊢
      exact List.mem_cons_of_mem _ (ih h)

/-- A write leaves every other index alone. -/
theorem Memory.read_write_ne (m : Memory) {p q : Nat} (v : Byte) (h : q ≠ p) :
    (m.write p v).read q = m.read q := by
  induction m with
  | nil =>
    simp only [Memory.write]
    split <;> simp [Memory.read, h]
  | cons d m ih =>
    simp only [Memory.write]
    split
    · split <;> simp [Memory.read, h]
    · split
      · rename_i _ hpd
        have : q ≠ d.1 := by omega
        split <;> simp [Memory.read, h, this]
      · simp only [Memory.read, ih]

/-- A write is what the index then reads as. -/
theorem Memory.read_write_eq {m : Memory} (hm : m.wf) (p : Nat) (v : Byte) : (m.write p v).read p = v := by
  induction m with
  | nil =>
    simp only [Memory.write]
    split
    · next h => simp [h]
    · simp [Memory.read]
  | cons d m ih =>
    simp only [Memory.write]
    split
    · next hlt =>
      split
      · next hv =>
        rw [hv]
        apply Memory.read_of_lt
        intro c hc
        rcases List.mem_cons.1 hc with rfl | hc
        · exact hlt
        · have := Memory.head_lt hm c hc; omega
      · simp [Memory.read]
    · split
      · next hpd =>
        split
        · next hv =>
          rw [hv]
          apply Memory.read_of_lt
          intro c hc
          have := Memory.head_lt hm c hc; omega
        · simp [Memory.read]
      · next hpd =>
        simp only [Memory.read, hpd, if_false]
        exact ih (Memory.wf_tail hm)

/-- The read of every index after a write. -/
theorem Memory.read_write {m : Memory} (hm : m.wf) (p q : Nat) (v : Byte) :
    (m.write p v).read q = if q = p then v else m.read q := by
  split
  · next h => subst h; exact Memory.read_write_eq hm _ v
  · next h => exact Memory.read_write_ne m v h

/-- What a write lists was listed, or is the written byte. -/
theorem Memory.mem_write {m : Memory} {p : Nat} {v : Byte} {c : Host.Cell} (h : c ∈ m.write p v) :
    c ∈ m ∨ (c = (p, v) ∧ v ≠ 0#8) := by
  induction m with
  | nil =>
    simp only [Memory.write] at h
    split at h
    · cases h
    · next hv => right; exact ⟨by simpa using h, hv⟩
  | cons d m ih =>
    simp only [Memory.write] at h
    split at h
    · split at h
      · exact .inl h
      · next hv => rcases List.mem_cons.1 h with rfl | h
                   · exact .inr ⟨rfl, hv⟩
                   · exact .inl h
    · split at h
      · split at h
        · exact .inl (List.mem_cons_of_mem _ h)
        · next hv => rcases List.mem_cons.1 h with rfl | h
                     · exact .inr ⟨rfl, hv⟩
                     · exact .inl (List.mem_cons_of_mem _ h)
      · rcases List.mem_cons.1 h with rfl | h
        · exact .inl (List.mem_cons_self ..)
        · exact (ih h).imp (List.mem_cons_of_mem _) id

/-- A write keeps the canonical form. -/
theorem Memory.write_wf {m : Memory} (hm : m.wf) (p : Nat) (v : Byte) : (m.write p v).wf := by
  refine ⟨?_, fun c hc => ?_⟩
  · induction m with
    | nil =>
      simp only [Memory.write]
      split <;> simp
    | cons d m ih =>
      have hd := Memory.head_lt hm
      simp only [Memory.write]
      split
      · next hlt =>
        split
        · exact hm.1
        · refine List.pairwise_cons.2 ⟨fun c hc => ?_, hm.1⟩
          rcases List.mem_cons.1 hc with rfl | hc
          · exact hlt
          · have := hd c hc; show p < c.1; omega
      · split
        · next hpd =>
          split
          · exact (Memory.wf_tail hm).1
          · refine List.pairwise_cons.2 ⟨fun c hc => ?_, (Memory.wf_tail hm).1⟩
            have := hd c hc; show p < c.1; omega
        · refine List.pairwise_cons.2 ⟨fun c hc => ?_, ih (Memory.wf_tail hm)⟩
          rcases Memory.mem_write hc with hc | ⟨rfl, _⟩
          · exact hd c hc
          · show d.1 < p; omega
  · rcases Memory.mem_write hc with hc | ⟨rfl, hv⟩
    · exact hm.2 c hc
    · exact hv

theorem Memory.filter_wf {m : Memory} (hm : m.wf) (f : Host.Cell → Bool) : Memory.wf (m.filter f) :=
  ⟨hm.1.filter f, fun c hc => hm.2 c (List.mem_filter.1 hc).1⟩

/-- Memories in canonical form that read the same at every index are the same list. -/
theorem Memory.ext_of_read {m n : Memory} (hm : m.wf) (hn : n.wf) (h : ∀ p, m.read p = n.read p) : m = n := by
  induction m generalizing n with
  | nil =>
    cases n with
    | nil => rfl
    | cons d n =>
      have := h d.1
      simp only [Memory.read, if_true] at this
      exact absurd this.symm (hn.2 d (List.mem_cons_self ..))
  | cons c m ih =>
    cases n with
    | nil =>
      have := h c.1
      simp only [Memory.read, if_true] at this
      exact absurd this (hm.2 c (List.mem_cons_self ..))
    | cons d n =>
      have hc := Memory.head_lt hm
      have hd := Memory.head_lt hn
      have hc2 := hm.2 c (List.mem_cons_self ..)
      have hd2 := hn.2 d (List.mem_cons_self ..)
      have e1 : c.1 = d.1 := by
        rcases Nat.lt_trichotomy c.1 d.1 with hlt | heq | hgt
        · have := h c.1
          rw [Memory.read_of_lt (m := d :: n) (p := c.1) (by
            intro x hx
            rcases List.mem_cons.1 hx with rfl | hx
            · exact hlt
            · have := hd x hx; omega)] at this
          simp only [Memory.read, if_true] at this
          exact absurd this hc2
        · exact heq
        · have := h d.1
          rw [Memory.read_of_lt (m := c :: m) (p := d.1) (by
            intro x hx
            rcases List.mem_cons.1 hx with rfl | hx
            · exact hgt
            · have := hc x hx; omega)] at this
          simp only [Memory.read, if_true] at this
          exact absurd this.symm hd2
      have e2 : c.2 = d.2 := by
        have := h c.1
        simpa [Memory.read, e1] using this
      have ecd : c = d := Prod.ext e1 e2
      subst ecd
      rw [ih (Memory.wf_tail hm) (Memory.wf_tail hn) fun p => ?_]
      by_cases hp : p = c.1
      · subst hp
        rw [Memory.read_of_lt hc, Memory.read_of_lt hd]
      · have := h p
        simpa [Memory.read, hp] using this

@[simp] theorem mem_insertPage {g h : Nat} {l : List Nat} : h ∈ insertPage g l ↔ h = g ∨ h ∈ l := by
  induction l with
  | nil => simp [insertPage]
  | cons x l ih =>
    simp only [insertPage]
    split
    · simp
    · split
      · next hx => subst hx; simp
      · simp only [List.mem_cons, ih]; tauto

theorem insertPage_sorted {g : Nat} {l : List Nat} (h : l.Pairwise (· < ·)) :
    (insertPage g l).Pairwise (· < ·) := by
  induction l with
  | nil => simp [insertPage]
  | cons x l ih =>
    have hx := (List.pairwise_cons.1 h).1
    have hl := (List.pairwise_cons.1 h).2
    simp only [insertPage]
    split
    · next hlt =>
      refine List.pairwise_cons.2 ⟨fun y hy => ?_, h⟩
      rcases List.mem_cons.1 hy with rfl | hy
      · exact hlt
      · have := hx y hy; omega
    · split
      · exact h
      · refine List.pairwise_cons.2 ⟨fun y hy => ?_, ih hl⟩
        rcases mem_insertPage.1 hy with rfl | hy
        · omega
        · exact hx y hy

end Sys2Proof.Machine
end

