-- ==== Sys2Proof/Laws/Operands.lean ====
section
/-! SUPPORT. The laws of translation and of page index and offset. -/

namespace Sys2Proof.Machine

theorem addrBusMask_toNat : addrBusMask.toNat = 2 ^ 24 - 1 := rfl

/-- The mask keeps the address modulo 2^24. -/
theorem bus_toNat (a : Addr) : (a &&& addrBusMask).toNat = a.toNat % 2 ^ 24 := by
  rw [BitVec.toNat_and, addrBusMask_toNat, Nat.and_two_pow_sub_one_eq_mod]

theorem translate_eq_mod (size : Nat) (a : Addr) : translate size a = a.toNat % 2 ^ 24 % size := by
  rw [translate, bus_toNat]

theorem translate_lt {size : Nat} (h : 0 < size) (a : Addr) : translate size a < size := Nat.mod_lt _ h

theorem constituent_toNat (a : Addr) (i : Nat) : (constituent a i).toNat = (a.toNat + i) % 2 ^ 32 := by
  simp [constituent, BitVec.toNat_add]

/-- The bus address of a constituent byte. -/
theorem constituent_bus (a : Addr) (i : Nat) : (constituent a i).toNat % 2 ^ 24 = (a.toNat % 2 ^ 24 + i) % 2 ^ 24 := by
  rw [constituent_toNat]; omega

theorem pageIndex_eq_div (b p : Nat) : pageIndex b p = p / 2 ^ b := Nat.shiftRight_eq_div_pow p b

theorem pageOffset_eq_mod (b p : Nat) : pageOffset b p = p % 2 ^ b := Nat.and_two_pow_sub_one_eq_mod p b

/-- An index is determined by its page index and its offset. -/
theorem page_coordinates_inj {b p q : Nat} (hg : pageIndex b p = pageIndex b q)
    (ho : pageOffset b p = pageOffset b q) : p = q := by
  rw [pageIndex_eq_div, pageIndex_eq_div] at hg
  rw [pageOffset_eq_mod, pageOffset_eq_mod] at ho
  rw [← Nat.div_add_mod p (2 ^ b), ← Nat.div_add_mod q (2 ^ b), hg, ho]

theorem pageIndex_mono {b p q : Nat} (h : p ≤ q) : pageIndex b p ≤ pageIndex b q := by
  rw [pageIndex_eq_div, pageIndex_eq_div]
  exact Nat.div_le_div_right h

theorem State.phys_lt {s : State} (h : 0 < s.size) (a : Addr) : s.phys a < s.size := translate_lt h a

theorem State.physOf_lt {s : State} (h : 0 < s.size) (a : Addr) (i : Nat) : s.physOf a i < s.size :=
  translate_lt h _

end Sys2Proof.Machine
end

