-- ==== Sys2Proof/Laws/State.lean ====
section
/-! SUPPORT. One lemma per field per named update of the state. -/

namespace Sys2Proof.Machine

@[simp] theorem State.refuse_size (why : RefuseReason) (s : State) : (s.refuse why).size = s.size := rfl
@[simp] theorem State.refuse_pageBits (why : RefuseReason) (s : State) : (s.refuse why).pageBits = s.pageBits := rfl
@[simp] theorem State.refuse_readAllocates (why : RefuseReason) (s : State) : (s.refuse why).readAllocates = s.readAllocates := rfl
@[simp] theorem State.refuse_mem (why : RefuseReason) (s : State) : (s.refuse why).mem = s.mem := rfl
@[simp] theorem State.refuse_pages (why : RefuseReason) (s : State) : (s.refuse why).pages = s.pages := rfl
@[simp] theorem State.refuse_life (why : RefuseReason) (s : State) : (s.refuse why).life = s.life := rfl
@[simp] theorem State.refuse_history (why : RefuseReason) (s : State) : (s.refuse why).history = s.history := rfl
@[simp] theorem State.refuse_refused (why : RefuseReason) (s : State) : (s.refuse why).refused = true := rfl
@[simp] theorem State.refuse_inFlight (why : RefuseReason) (s : State) : (s.refuse why).inFlight = s.inFlight := rfl
@[simp] theorem State.refuse_response (why : RefuseReason) (s : State) : (s.refuse why).response = .refused why := rfl
@[simp] theorem State.refuse_pending (why : RefuseReason) (s : State) : (s.refuse why).pending = s.pending := rfl

@[simp] theorem State.allocate_size (s : State) (g : Nat) : (s.allocate g).size = s.size := rfl
@[simp] theorem State.allocate_pageBits (s : State) (g : Nat) : (s.allocate g).pageBits = s.pageBits := rfl
@[simp] theorem State.allocate_readAllocates (s : State) (g : Nat) : (s.allocate g).readAllocates = s.readAllocates := rfl
@[simp] theorem State.allocate_mem (s : State) (g : Nat) : (s.allocate g).mem = s.mem.filter (fun c => s.pg c.1 != g) := rfl
@[simp] theorem State.allocate_pages (s : State) (g : Nat) : (s.allocate g).pages = insertPage g s.pages := rfl
@[simp] theorem State.allocate_life (s : State) (g : Nat) : (s.allocate g).life = s.life := rfl
@[simp] theorem State.allocate_history (s : State) (g : Nat) : (s.allocate g).history = s.history := rfl
@[simp] theorem State.allocate_refused (s : State) (g : Nat) : (s.allocate g).refused = s.refused := rfl
@[simp] theorem State.allocate_inFlight (s : State) (g : Nat) : (s.allocate g).inFlight = s.inFlight := rfl
@[simp] theorem State.allocate_response (s : State) (g : Nat) : (s.allocate g).response = s.response := rfl
@[simp] theorem State.allocate_pending (s : State) (g : Nat) : (s.allocate g).pending = s.pending := rfl

@[simp] theorem State.record_size (s : State) (op : Op) (sp : AddressSpace) (a : Addr) (d : Word) : (s.record op sp a d).size = s.size := rfl
@[simp] theorem State.record_pageBits (s : State) (op : Op) (sp : AddressSpace) (a : Addr) (d : Word) : (s.record op sp a d).pageBits = s.pageBits := rfl
@[simp] theorem State.record_readAllocates (s : State) (op : Op) (sp : AddressSpace) (a : Addr) (d : Word) : (s.record op sp a d).readAllocates = s.readAllocates := rfl
@[simp] theorem State.record_mem (s : State) (op : Op) (sp : AddressSpace) (a : Addr) (d : Word) : (s.record op sp a d).mem = s.mem := rfl
@[simp] theorem State.record_pages (s : State) (op : Op) (sp : AddressSpace) (a : Addr) (d : Word) : (s.record op sp a d).pages = s.pages := rfl
@[simp] theorem State.record_life (s : State) (op : Op) (sp : AddressSpace) (a : Addr) (d : Word) : (s.record op sp a d).life = s.life := rfl
@[simp] theorem State.record_history (s : State) (op : Op) (sp : AddressSpace) (a : Addr) (d : Word) : (s.record op sp a d).history = s.history ++ [⟨op, sp, a, d⟩] := rfl
@[simp] theorem State.record_refused (s : State) (op : Op) (sp : AddressSpace) (a : Addr) (d : Word) : (s.record op sp a d).refused = s.refused := rfl
@[simp] theorem State.record_inFlight (s : State) (op : Op) (sp : AddressSpace) (a : Addr) (d : Word) : (s.record op sp a d).inFlight = s.inFlight := rfl
@[simp] theorem State.record_response (s : State) (op : Op) (sp : AddressSpace) (a : Addr) (d : Word) : (s.record op sp a d).response = s.response := rfl
@[simp] theorem State.record_pending (s : State) (op : Op) (sp : AddressSpace) (a : Addr) (d : Word) : (s.record op sp a d).pending = s.pending := rfl

@[simp] theorem State.raiseConstructError_size (e : ConstructReason) (n : Nat) (s : State) : (s.raiseConstructError e n).size = s.size := rfl
@[simp] theorem State.raiseConstructError_pageBits (e : ConstructReason) (n : Nat) (s : State) : (s.raiseConstructError e n).pageBits = s.pageBits := rfl
@[simp] theorem State.raiseConstructError_readAllocates (e : ConstructReason) (n : Nat) (s : State) : (s.raiseConstructError e n).readAllocates = s.readAllocates := rfl
@[simp] theorem State.raiseConstructError_mem (e : ConstructReason) (n : Nat) (s : State) : (s.raiseConstructError e n).mem = s.mem := rfl
@[simp] theorem State.raiseConstructError_pages (e : ConstructReason) (n : Nat) (s : State) : (s.raiseConstructError e n).pages = s.pages := rfl
@[simp] theorem State.raiseConstructError_life (e : ConstructReason) (n : Nat) (s : State) : (s.raiseConstructError e n).life = s.life := rfl
@[simp] theorem State.raiseConstructError_history (e : ConstructReason) (n : Nat) (s : State) : (s.raiseConstructError e n).history = s.history := rfl
@[simp] theorem State.raiseConstructError_refused (e : ConstructReason) (n : Nat) (s : State) : (s.raiseConstructError e n).refused = s.refused := rfl
@[simp] theorem State.raiseConstructError_inFlight (e : ConstructReason) (n : Nat) (s : State) : (s.raiseConstructError e n).inFlight = s.inFlight := rfl
@[simp] theorem State.raiseConstructError_response (e : ConstructReason) (n : Nat) (s : State) : (s.raiseConstructError e n).response = .constructError e n := rfl
@[simp] theorem State.raiseConstructError_pending (e : ConstructReason) (n : Nat) (s : State) : (s.raiseConstructError e n).pending = s.pending := rfl

@[simp] theorem State.release_size (s : State) : (s.release).size = s.size := rfl
@[simp] theorem State.release_pageBits (s : State) : (s.release).pageBits = s.pageBits := rfl
@[simp] theorem State.release_readAllocates (s : State) : (s.release).readAllocates = s.readAllocates := rfl
@[simp] theorem State.release_mem (s : State) : (s.release).mem = [] := rfl
@[simp] theorem State.release_pages (s : State) : (s.release).pages = [] := rfl
@[simp] theorem State.release_life (s : State) : (s.release).life = .released := rfl
@[simp] theorem State.release_history (s : State) : (s.release).history = s.history := rfl
@[simp] theorem State.release_refused (s : State) : (s.release).refused = s.markAtEnd := rfl
@[simp] theorem State.release_inFlight (s : State) : (s.release).inFlight = none := rfl
@[simp] theorem State.release_response (s : State) : (s.release).response = .released := rfl
@[simp] theorem State.release_pending (s : State) : (s.release).pending = s.pending := rfl

@[simp] theorem State.withFetchWord_size (s : State) (n w : Nat) : (s.withFetchWord n w).size = s.size := rfl
@[simp] theorem State.withFetchWord_pageBits (s : State) (n w : Nat) : (s.withFetchWord n w).pageBits = s.pageBits := rfl
@[simp] theorem State.withFetchWord_readAllocates (s : State) (n w : Nat) : (s.withFetchWord n w).readAllocates = s.readAllocates := rfl
@[simp] theorem State.withFetchWord_mem (s : State) (n w : Nat) : (s.withFetchWord n w).mem = s.mem := rfl
@[simp] theorem State.withFetchWord_pages (s : State) (n w : Nat) : (s.withFetchWord n w).pages = s.pages := rfl
@[simp] theorem State.withFetchWord_life (s : State) (n w : Nat) : (s.withFetchWord n w).life = s.life := rfl
@[simp] theorem State.withFetchWord_history (s : State) (n w : Nat) : (s.withFetchWord n w).history = s.history := rfl
@[simp] theorem State.withFetchWord_refused (s : State) (n w : Nat) : (s.withFetchWord n w).refused = s.refused := rfl
@[simp] theorem State.withFetchWord_inFlight (s : State) (n w : Nat) : (s.withFetchWord n w).inFlight = s.inFlight := rfl
@[simp] theorem State.withFetchWord_response (s : State) (n w : Nat) : (s.withFetchWord n w).response = s.response := rfl
@[simp] theorem State.withFetchWord_pending (s : State) (n w : Nat) : (s.withFetchWord n w).pending = .request (Request.ofBits (w % 2 ^ n)) :: s.pending := rfl

@[simp] theorem State.view_size (s : State) : (s.view).size = s.size := rfl
@[simp] theorem State.view_pageBits (s : State) : (s.view).pageBits = 0 := rfl
@[simp] theorem State.view_readAllocates (s : State) : (s.view).readAllocates = false := rfl
@[simp] theorem State.view_mem (s : State) : (s.view).mem = s.mem := rfl
@[simp] theorem State.view_pages (s : State) : (s.view).pages = [] := rfl
@[simp] theorem State.view_life (s : State) : (s.view).life = s.life := rfl
@[simp] theorem State.view_history (s : State) : (s.view).history = s.history := rfl
@[simp] theorem State.view_refused (s : State) : (s.view).refused = s.refused := rfl
@[simp] theorem State.view_inFlight (s : State) : (s.view).inFlight = s.inFlight := rfl
@[simp] theorem State.view_response (s : State) : (s.view).response = s.response := rfl
@[simp] theorem State.view_pending (s : State) : (s.view).pending = s.pending := rfl

@[simp] theorem State.fresh_size (p : Params) : (State.fresh p).size = p.size := rfl
@[simp] theorem State.fresh_pageBits (p : Params) : (State.fresh p).pageBits = p.pageBits := rfl
@[simp] theorem State.fresh_readAllocates (p : Params) : (State.fresh p).readAllocates = p.readAllocates := rfl
@[simp] theorem State.fresh_mem (p : Params) : (State.fresh p).mem = [] := rfl
@[simp] theorem State.fresh_pages (p : Params) : (State.fresh p).pages = [] := rfl
@[simp] theorem State.fresh_life (p : Params) : (State.fresh p).life = .live := rfl
@[simp] theorem State.fresh_history (p : Params) : (State.fresh p).history = [] := rfl
@[simp] theorem State.fresh_refused (p : Params) : (State.fresh p).refused = false := rfl
@[simp] theorem State.fresh_inFlight (p : Params) : (State.fresh p).inFlight = none := rfl
@[simp] theorem State.fresh_response (p : Params) : (State.fresh p).response = .constructed := rfl
@[simp] theorem State.fresh_pending (p : Params) : (State.fresh p).pending = [] := rfl

end Sys2Proof.Machine
end

