-- ==== Sys2Proof/Laws/Ops.lean ====
section
/-! SUPPORT. What each shared operation can do, said once: byte and multi-byte accesses, transactions, construction. -/

namespace Sys2Proof.Machine

/-- A page's byte is the storage's byte (10_state.md R28, allocated pages). -/
theorem State.page_read (s : State) (p : Nat) : (s.page (s.pg p)).read (s.off p) = s.mem.read p := by
  simp only [State.page]
  induction s.mem with
  | nil => rfl
  | cons c m ih =>
    by_cases hg : s.pg c.1 = s.pg p
    · by_cases hp : p = c.1
      · subst hp; simp [Memory.read]
      · have ho : s.off p ≠ s.off c.1 := fun h => hp (page_coordinates_inj hg.symm h)
        simpa [hg, Memory.read, ho, hp] using ih
    · have hp : p ≠ c.1 := fun h => hg (by rw [h])
      simpa [hg, Memory.read, hp] using ih

theorem State.lookup_of_mem {s : State} {g : Nat} (h : g ∈ s.pages) : s.lookup g = some (s.page g) := by
  simp [State.lookup, h]

theorem State.lookup_of_not_mem {s : State} {g : Nat} (h : g ∉ s.pages) : s.lookup g = none := by
  simp [State.lookup, h]

/-- A byte of an unallocated page is zero (10_state.md R28). -/
theorem State.Inv.read_unallocated {s : State} (h : s.Inv) {p : Nat} (hp : s.pg p ∉ s.pages) :
    s.mem.read p = 0#8 := by
  by_contra hne
  exact hp (h.mem_allocated _ (Memory.mem_of_read hne))

theorem State.Inv.read_above {s : State} (h : s.Inv) {p : Nat} (hp : s.size ≤ p) : s.mem.read p = 0#8 := by
  by_contra hne
  have := h.mem_lt _ (Memory.mem_of_read hne)
  simp only at this
  omega

/-- Allocating an unallocated page changes no byte. -/
theorem State.Inv.allocate_eq {s : State} (h : s.Inv) {g : Nat} (hg : g ∉ s.pages) :
    s.allocate g = { s with pages := insertPage g s.pages } := by
  have : s.mem.filter (fun c => s.pg c.1 != g) = s.mem := by
    rw [List.filter_eq_self]
    intro c hc
    have := h.mem_allocated c hc
    simp only [bne_iff_ne, ne_eq]
    intro hcg
    exact hg (hcg ▸ this)
  simp [State.allocate, this]

/-! Frames that hold in every state: an access changes at most the storage and the allocated pages. -/

theorem State.byteRead_frame (s : State) (p : Nat) :
    (s.byteRead p).2 = { s with mem := (s.byteRead p).2.mem, pages := (s.byteRead p).2.pages } := by
  unfold State.byteRead
  split
  · rfl
  · dsimp only
    split <;> rfl

theorem State.byteWrite_frame (s : State) (p : Nat) (v : Byte) :
    s.byteWrite p v = { s with mem := (s.byteWrite p v).mem, pages := (s.byteWrite p v).pages } := by
  unfold State.byteWrite State.touch
  split <;> rfl

theorem State.readBytes_frame (a : Addr) (is : List Nat) (r : Word) (s : State) :
    (State.readBytes a is r s).2 =
      { s with mem := (State.readBytes a is r s).2.mem, pages := (State.readBytes a is r s).2.pages } := by
  induction is generalizing r s with
  | nil => rfl
  | cons i is ih =>
    simp only [State.readBytes]
    generalize (r <<< 8 ||| _ : Word) = r'
    refine (ih r' _).trans ?_
    rw [State.byteRead_frame s]

theorem State.writeBytes_frame (a : Addr) (w : Width) (v : Word) (is : List Nat) (s : State) :
    State.writeBytes a w v is s =
      { s with mem := (State.writeBytes a w v is s).mem, pages := (State.writeBytes a w v is s).pages } := by
  induction is generalizing s with
  | nil => rfl
  | cons i is ih =>
    simp only [State.writeBytes]
    refine (ih _).trans ?_
    rw [State.byteWrite_frame s]

theorem State.memRead_frame (a : Addr) (w : Width) (s : State) :
    (s.memRead a w).2 = { s with mem := (s.memRead a w).2.mem, pages := (s.memRead a w).2.pages } :=
  State.readBytes_frame ..

theorem State.memWrite_frame (a : Addr) (w : Width) (v : Word) (s : State) :
    s.memWrite a w v = { s with mem := (s.memWrite a w v).mem, pages := (s.memWrite a w v).pages } :=
  State.writeBytes_frame ..

/-- The invariant reads the storage, the configuration and the life, and of the rest only the history before construction
and the transaction in flight outside the session. -/
theorem State.Inv.congr {s t : State} (h : s.Inv) (hs : t.size = s.size) (hb : t.pageBits = s.pageBits)
    (hm : t.mem = s.mem) (hp : t.pages = s.pages) (hl : t.life = s.life)
    (hh : t.life = .unconstructed → t.history = []) (hf : t.life ≠ .live → t.inFlight = none) : t.Inv := by
  constructor
  · rw [hb]; exact h.pageBits_le
  · rw [hs, hl]; exact h.size_legal
  · rw [hm, hp, hl]; exact h.dead_empty
  · exact hh
  · exact hf
  · rw [hm]; exact h.mem_wf
  · rw [hm, hs]; exact h.mem_lt
  · rw [hm, hp]
    simp only [State.pg, hb]
    exact h.mem_allocated
  · rw [hp]; exact h.pages_sorted
  · rw [hp, hs]
    simp only [State.pg, hb]
    exact h.pages_le

theorem State.Inv.size_pos {s : State} (h : s.Inv) (hl : s.life = .live) : 0 < s.size :=
  (h.size_legal (by simp [hl])).1

/-- One more allocated page, the storage in it, keeps the invariant. -/
theorem State.Inv.with_page {s : State} (h : s.Inv) (hl : s.life = .live) {p : Nat} (hp : p < s.size) {ps : List Nat}
    (hps : ∀ g, g ∈ ps ↔ g ∈ s.pages ∨ g = s.pg p) (hsort : ps.Pairwise (· < ·)) (v : Byte) :
    State.Inv { s with mem := s.mem.write p v, pages := ps } where
  pageBits_le := h.pageBits_le
  size_legal := h.size_legal
  dead_empty := fun hn => absurd hl hn
  unconstructed_history := h.unconstructed_history
  dead_idle := h.dead_idle
  mem_wf := Memory.write_wf h.mem_wf p v
  mem_lt := fun c hc => by
    rcases Memory.mem_write hc with hc | ⟨rfl, _⟩
    · exact h.mem_lt c hc
    · exact hp
  mem_allocated := fun c hc => (hps _).2 <| by
    rcases Memory.mem_write hc with hc | ⟨rfl, _⟩
    · exact .inl (h.mem_allocated c hc)
    · exact .inr rfl
  pages_sorted := hsort
  pages_le := fun g hg => by
    rcases (hps g).1 hg with hg | rfl
    · exact h.pages_le g hg
    · exact pageIndex_mono (by have : p < s.size := hp; show p ≤ s.size - 1; omega)

/-- More allocated pages within the instance keep the invariant. -/
theorem State.Inv.with_pages {s : State} (h : s.Inv) (hl : s.life = .live) {ps : List Nat}
    (hsub : ∀ g ∈ s.pages, g ∈ ps) (hsort : ps.Pairwise (· < ·)) (hle : ∀ g ∈ ps, g ≤ s.pg (s.size - 1)) :
    State.Inv { s with pages := ps } where
  pageBits_le := h.pageBits_le
  size_legal := h.size_legal
  dead_empty := fun hn => absurd hl hn
  unconstructed_history := h.unconstructed_history
  dead_idle := h.dead_idle
  mem_wf := h.mem_wf
  mem_lt := h.mem_lt
  mem_allocated := fun c hc => hsub _ (h.mem_allocated c hc)
  pages_sorted := hsort
  pages_le := hle

/-- `ByteRead`: the storage's byte, and at most one page more (20_memory.md R40). -/
theorem State.byteRead_spec {s : State} (h : s.Inv) (hl : s.life = .live) {p : Nat} (hp : p < s.size) :
    ∃ ps, s.byteRead p = (s.mem.read p, { s with pages := ps }) ∧
      (∀ g, g ∈ ps ↔ g ∈ s.pages ∨ (s.readAllocates = true ∧ g = s.pg p)) ∧
      (s.readAllocates = false → ps = s.pages) ∧ State.Inv { s with pages := ps } := by
  by_cases hg : s.pg p ∈ s.pages
  · refine ⟨s.pages, ?_, fun g => ⟨.inl, ?_⟩, fun _ => rfl, h⟩
    · simp [State.byteRead, State.lookup_of_mem hg, State.page_read]
    · rintro (hg' | ⟨_, rfl⟩)
      · exact hg'
      · exact hg
  · rw [State.byteRead, State.lookup_of_not_mem hg, h.read_unallocated hg]
    by_cases hr : s.readAllocates = true
    · refine ⟨insertPage (s.pg p) s.pages, by simp [h.allocate_eq hg, hr], by simp [or_comm, hr], by simp [hr], ?_⟩
      refine h.with_pages hl (fun g hg => mem_insertPage.2 (.inr hg)) (insertPage_sorted h.pages_sorted) ?_
      intro g hg'
      rcases mem_insertPage.1 hg' with rfl | hg'
      · exact pageIndex_mono (by omega)
      · exact h.pages_le g hg'
    · exact ⟨s.pages, by rw [if_neg hr], by simp [hr], fun _ => rfl, h⟩

/-- `ByteWrite`: one byte stored, its page allocated, nothing else (20_memory.md R41). -/
theorem State.byteWrite_spec {s : State} (h : s.Inv) (hl : s.life = .live) {p : Nat} (hp : p < s.size) (v : Byte) :
    ∃ ps, s.byteWrite p v = { s with mem := s.mem.write p v, pages := ps } ∧
      (∀ g, g ∈ ps ↔ g ∈ s.pages ∨ g = s.pg p) ∧
      State.Inv { s with mem := s.mem.write p v, pages := ps } := by
  by_cases hg : s.pg p ∈ s.pages
  · have hps : ∀ g, g ∈ s.pages ↔ g ∈ s.pages ∨ g = s.pg p := fun g =>
      ⟨.inl, fun h' => h'.elim id (fun e => e ▸ hg)⟩
    exact ⟨s.pages, by simp [State.byteWrite, State.touch, State.lookup_of_mem hg], hps,
      h.with_page hl hp hps h.pages_sorted v⟩
  · have hps : ∀ g, g ∈ insertPage (s.pg p) s.pages ↔ g ∈ s.pages ∨ g = s.pg p := by simp [or_comm]
    exact ⟨insertPage (s.pg p) s.pages,
      by simp [State.byteWrite, State.touch, State.lookup_of_not_mem hg, h.allocate_eq hg], hps,
      h.with_page hl hp hps (insertPage_sorted h.pages_sorted) v⟩

/-- The big-endian value of the constituent bytes listed, `r` before them (20_memory.md R44). -/
def composed (s : State) (a : Addr) (is : List Nat) (r : Word) : Word :=
  is.foldl (fun r i => (r <<< 8) ||| (s.mem.read (s.physOf a i)).setWidth 32) r

theorem State.readBytes_spec (a : Addr) (is : List Nat) (r : Word) {s : State} (h : s.Inv) (hl : s.life = .live) :
    ∃ ps, State.readBytes a is r s = (composed s a is r, { s with pages := ps }) ∧
      (∀ g, g ∈ ps ↔ g ∈ s.pages ∨ (s.readAllocates = true ∧ ∃ i ∈ is, g = s.pg (s.physOf a i))) ∧
      (s.readAllocates = false → ps = s.pages) ∧ State.Inv { s with pages := ps } := by
  induction is generalizing r s with
  | nil => exact ⟨s.pages, rfl, by simp, fun _ => rfl, h⟩
  | cons i is ih =>
    obtain ⟨ps, e, hps, hr, hi⟩ := State.byteRead_spec h hl (State.physOf_lt (h.size_pos hl) a i)
    obtain ⟨qs, e', hqs, hr', hi'⟩ :=
      ih ((r <<< 8) ||| (s.mem.read (s.physOf a i)).setWidth 32) hi hl
    refine ⟨qs, ?_, fun g => ?_, fun hf => (hr' hf).trans (hr hf), hi'⟩
    · simp only [State.readBytes, e]
      exact e'
    · have hx : ∀ j, State.physOf { s with pages := ps } a j = s.physOf a j := fun _ => rfl
      have hy : ∀ p, State.pg { s with pages := ps } p = s.pg p := fun _ => rfl
      rw [hqs, hps]
      simp only [hx, hy, List.mem_cons, exists_eq_or_imp]
      tauto

/-- `MemRead`: the composed value, and at most some pages more (20_memory.md R44). -/
theorem State.memRead_spec (a : Addr) (w : Width) {s : State} (h : s.Inv) (hl : s.life = .live) :
    ∃ ps, s.memRead a w = (composed s a (List.range w.bytes) 0#32, { s with pages := ps }) ∧
      (∀ g, g ∈ ps ↔ g ∈ s.pages ∨ (s.readAllocates = true ∧ ∃ i < w.bytes, g = s.pg (s.physOf a i))) ∧
      (s.readAllocates = false → ps = s.pages) ∧ State.Inv { s with pages := ps } := by
  simpa [State.memRead] using State.readBytes_spec a (List.range w.bytes) 0#32 h hl

/-- The byte at `p` after the constituent bytes listed are stored in order over `b` (20_memory.md R45). -/
def overwritten (s : State) (a : Addr) (w : Width) (v : Word) (is : List Nat) (p : Nat) (b : Byte) : Byte :=
  is.foldl (fun acc i => if s.physOf a i = p then byteOf w v i else acc) b

theorem State.writeBytes_spec (a : Addr) (w : Width) (v : Word) (is : List Nat) {s : State} (h : s.Inv)
    (hl : s.life = .live) :
    ∃ m ps, State.writeBytes a w v is s = { s with mem := m, pages := ps } ∧
      (∀ p, m.read p = overwritten s a w v is p (s.mem.read p)) ∧
      (∀ g, g ∈ ps ↔ g ∈ s.pages ∨ ∃ i ∈ is, g = s.pg (s.physOf a i)) ∧
      State.Inv { s with mem := m, pages := ps } := by
  induction is generalizing s with
  | nil => exact ⟨s.mem, s.pages, rfl, fun _ => rfl, by simp, h⟩
  | cons i is ih =>
    obtain ⟨ps, e, hps, hi⟩ :=
      State.byteWrite_spec h hl (State.physOf_lt (h.size_pos hl) a i) (byteOf w v i)
    obtain ⟨m, qs, e', hm, hqs, hi'⟩ := ih hi hl
    refine ⟨m, qs, ?_, fun p => ?_, fun g => ?_, hi'⟩
    · simp only [State.writeBytes, e]
      exact e'
    · rw [hm]
      show overwritten s a w v is p ((s.mem.write (s.physOf a i) (byteOf w v i)).read p) = _
      rw [Memory.read_write h.mem_wf]
      by_cases hp : p = s.physOf a i
      · simp [overwritten, hp]
      · simp [overwritten, hp, Ne.symm hp]
    · have hx : ∀ m j, State.physOf { s with mem := m, pages := ps } a j = s.physOf a j := fun _ _ => rfl
      have hy : ∀ m p, State.pg { s with mem := m, pages := ps } p = s.pg p := fun _ _ => rfl
      rw [hqs, hps]
      simp only [hx, hy, List.mem_cons, exists_eq_or_imp]
      tauto

/-- `MemWrite`: the constituent bytes stored in order, their pages allocated, nothing else (20_memory.md R45). -/
theorem State.memWrite_spec (a : Addr) (w : Width) (v : Word) {s : State} (h : s.Inv) (hl : s.life = .live) :
    ∃ m ps, s.memWrite a w v = { s with mem := m, pages := ps } ∧
      (∀ p, m.read p = overwritten s a w v (List.range w.bytes) p (s.mem.read p)) ∧
      (∀ g, g ∈ ps ↔ g ∈ s.pages ∨ ∃ i < w.bytes, g = s.pg (s.physOf a i)) ∧
      State.Inv { s with mem := m, pages := ps } := by
  simpa [State.memWrite] using State.writeBytes_spec a w v (List.range w.bytes) h hl

/-- A decoded transaction is blocked exactly when it is not accepted. -/
theorem State.blocked_eq_none {s : State} : s.blocked = none ↔ s.Accepting := by
  unfold State.blocked State.Accepting
  cases s.life <;> cases s.inFlight <;> simp

/-- An accepted read: its answer, one record more, at most some pages more, nothing else (41_read_transactions.md R78). -/
theorem State.performRead_spec (op : Op) (sp : AddressSpace) (a : Addr) {s : State} (h : s.Inv) (hl : s.life = .live) :
    ∃ ps, s.performRead op sp a = (composed s a (List.range op.width.bytes) 0#32,
        { s with pages := ps, history := s.history ++ [⟨op, sp, a, composed s a (List.range op.width.bytes) 0#32⟩] }) ∧
      (∀ g, g ∈ ps ↔ g ∈ s.pages ∨ (s.readAllocates = true ∧ ∃ i < op.width.bytes, g = s.pg (s.physOf a i))) ∧
      (s.readAllocates = false → ps = s.pages) ∧ State.Inv { s with pages := ps } := by
  obtain ⟨ps, e, h1, h2, h3⟩ := State.memRead_spec a op.width h hl
  exact ⟨ps, by simp only [State.performRead, e, State.record], h1, h2, h3⟩

/-- An accepted write: its bytes stored in order, one record more, their pages allocated, nothing else (42_write_transactions.md R82). -/
theorem State.performWrite_spec (op : Op) (sp : AddressSpace) (a : Addr) (v : Word) {s : State} (h : s.Inv)
    (hl : s.life = .live) :
    ∃ m ps, s.performWrite op sp a v =
        { s with mem := m, pages := ps, history := s.history ++ [⟨op, sp, a, v⟩] } ∧
      (∀ p, m.read p = overwritten s a op.width v (List.range op.width.bytes) p (s.mem.read p)) ∧
      (∀ g, g ∈ ps ↔ g ∈ s.pages ∨ ∃ i < op.width.bytes, g = s.pg (s.physOf a i)) ∧
      State.Inv { s with mem := m, pages := ps } := by
  obtain ⟨m, ps, e, h1, h2, h3⟩ := State.memWrite_spec a op.width v h hl
  exact ⟨m, ps, by simp only [State.performWrite, e, State.record], h1, h2, h3⟩

/-- A read presented to an accepting instance. -/
theorem State.readTransaction_accepted (op : Op) (sp : AddressSpace) (a : Addr) {s : State} (h : s.Inv)
    (ha : s.Accepting) :
    ∃ ps, s.readTransaction op sp a = .next { s with
          pages := ps
          history := s.history ++ [⟨op, sp, a, composed s a (List.range op.width.bytes) 0#32⟩]
          response := .rdata (composed s a (List.range op.width.bytes) 0#32) } ∧
      (∀ g, g ∈ ps ↔ g ∈ s.pages ∨ (s.readAllocates = true ∧ ∃ i < op.width.bytes, g = s.pg (s.physOf a i))) ∧
      (s.readAllocates = false → ps = s.pages) ∧ State.Inv { s with pages := ps } := by
  obtain ⟨ps, e, h1, h2, h3⟩ := State.performRead_spec op sp a h ha.1
  exact ⟨ps, by simp only [State.readTransaction, State.blocked_eq_none.2 ha, e], h1, h2, h3⟩

/-- A write presented to an accepting instance. -/
theorem State.writeTransaction_accepted (op : Op) (sp : AddressSpace) (a : Addr) (v : Word) {s : State} (h : s.Inv)
    (ha : s.Accepting) :
    ∃ m ps, s.writeTransaction op sp a v = .next { s with
          mem := m
          pages := ps
          history := s.history ++ [⟨op, sp, a, v⟩]
          response := .written } ∧
      (∀ p, m.read p = overwritten s a op.width v (List.range op.width.bytes) p (s.mem.read p)) ∧
      (∀ g, g ∈ ps ↔ g ∈ s.pages ∨ ∃ i < op.width.bytes, g = s.pg (s.physOf a i)) ∧
      State.Inv { s with mem := m, pages := ps } := by
  obtain ⟨m, ps, e, h1, h2, h3⟩ := State.performWrite_spec op sp a v h ha.1
  exact ⟨m, ps, by simp only [State.writeTransaction, State.blocked_eq_none.2 ha, e], h1, h2, h3⟩

/-- An accepted read in any state: its answer and its record, at most storage and pages beside them. -/
theorem State.readTransaction_eq (op : Op) (sp : AddressSpace) (a : Addr) {s : State} (ha : s.Accepting) :
    s.readTransaction op sp a = .next { s with
      mem := (s.memRead a op.width).2.mem
      pages := (s.memRead a op.width).2.pages
      history := s.history ++ [⟨op, sp, a, (s.memRead a op.width).1⟩]
      response := .rdata (s.memRead a op.width).1 } := by
  simp only [State.readTransaction, State.blocked_eq_none.2 ha, State.performRead, State.record]
  rw [State.memRead_frame a op.width s]

/-- An accepted write in any state: its record and its answer, at most storage and pages beside them. -/
theorem State.writeTransaction_eq (op : Op) (sp : AddressSpace) (a : Addr) (v : Word) {s : State} (ha : s.Accepting) :
    s.writeTransaction op sp a v = .next { s with
      mem := (s.memWrite a op.width v).mem
      pages := (s.memWrite a op.width v).pages
      history := s.history ++ [⟨op, sp, a, v⟩]
      response := .written } := by
  simp only [State.writeTransaction, State.blocked_eq_none.2 ha, State.performWrite, State.record]
  rw [State.memWrite_frame a op.width v s]

/-- A read is accepted, or refused by name (41_read_transactions.md R78). -/
theorem State.readTransaction_cases (op : Op) (sp : AddressSpace) (a : Addr) (s : State) :
    (s.Accepting ∧ s.readTransaction op sp a =
      .next { (s.performRead op sp a).2 with response := .rdata (s.performRead op sp a).1 }) ∨
    (∃ why, s.blocked = some why ∧ ¬ s.Accepting ∧ s.readTransaction op sp a = .next (s.refuse why)) := by
  unfold State.readTransaction
  cases hb : s.blocked with
  | none => exact .inl ⟨State.blocked_eq_none.1 hb, rfl⟩
  | some why => exact .inr ⟨why, rfl, fun h => by simp [State.blocked_eq_none.2 h] at hb, rfl⟩

/-- A write is accepted, or refused by name (42_write_transactions.md R82). -/
theorem State.writeTransaction_cases (op : Op) (sp : AddressSpace) (a : Addr) (v : Word) (s : State) :
    (s.Accepting ∧ s.writeTransaction op sp a v = .next { s.performWrite op sp a v with response := .written }) ∨
    (∃ why, s.blocked = some why ∧ ¬ s.Accepting ∧ s.writeTransaction op sp a v = .next (s.refuse why)) := by
  unfold State.writeTransaction
  cases hb : s.blocked with
  | none => exact .inl ⟨State.blocked_eq_none.1 hb, rfl⟩
  | some why => exact .inr ⟨why, rfl, fun h => by simp [State.blocked_eq_none.2 h] at hb, rfl⟩

/-- Construction raises its error for size zero, for a size above the maximum, or leaves a fresh instance (70_reset_and_hazards.md R101). -/
theorem State.construct_cases (n : Nat) (s : State) :
    (n = 0 ∧ s.construct n = s.raiseConstructError .sizeZero n) ∨
    (maxSize < n ∧ s.construct n = s.raiseConstructError .sizeTooLarge n) ∨
    (0 < n ∧ n ≤ maxSize ∧
      s.construct n = { State.fresh ⟨n, s.pageBits, s.readAllocates⟩ with
        refused := s.markAtEnd, pending := s.pending }) := by
  unfold State.construct
  split
  · exact .inl ⟨‹_›, rfl⟩
  · split
    · exact .inr (.inl ⟨‹_›, rfl⟩)
    · exact .inr (.inr ⟨by omega, by omega, rfl⟩)

end Sys2Proof.Machine
end

