-- ==== Sys2Proof/Laws/PerInstr.lean ====
section
/-! SUPPORT. What holds of every instruction as syntax, one lemma per constructor. -/

/-- The request an instruction is encoded as is well-formed, and carries its address and its function code (30_encoding.md R60 to R62). -/
def Sys2Proof.Laws.Encoding.Statement (i : Sys2Proof.Instr) : Prop :=
  (Sys2Proof.encode i).wellFormed = true ∧ (Sys2Proof.encode i).addr = i.addr ∧
    (Sys2Proof.encode i).cmd.extractLsb' 3 3 = i.space.fc

namespace Sys2Proof.Laws.Encoding

/-- A request with a command word of the layout is well-formed. -/
theorem wellFormed_commandWord (sp : AddressSpace) (rw : BitVec 1) (w : Width) (a : Addr) (v : Word) :
    (Request.mk (commandWord sp rw w) a v).wellFormed = true := by
  simp only [Request.wellFormed, Request.resOk, Request.fcOk, Request.szOk, commandWord_res, commandWord_fc, commandWord_sz]
  rcases sp with ⟨_ | _, _ | _⟩ <;> cases w <;> decide

theorem readByte (sp : AddressSpace) (a : Addr) : Statement (.readByte sp a) :=
  ⟨wellFormed_commandWord .., rfl, commandWord_fc ..⟩

theorem readWord (sp : AddressSpace) (a : Addr) : Statement (.readWord sp a) :=
  ⟨wellFormed_commandWord .., rfl, commandWord_fc ..⟩

theorem readLong (sp : AddressSpace) (a : Addr) : Statement (.readLong sp a) :=
  ⟨wellFormed_commandWord .., rfl, commandWord_fc ..⟩

theorem writeByte (sp : AddressSpace) (a : Addr) (v : Word) : Statement (.writeByte sp a v) :=
  ⟨wellFormed_commandWord .., rfl, commandWord_fc ..⟩

theorem writeWord (sp : AddressSpace) (a : Addr) (v : Word) : Statement (.writeWord sp a v) :=
  ⟨wellFormed_commandWord .., rfl, commandWord_fc ..⟩

theorem writeLong (sp : AddressSpace) (a : Addr) (v : Word) : Statement (.writeLong sp a v) :=
  ⟨wellFormed_commandWord .., rfl, commandWord_fc ..⟩

end Sys2Proof.Laws.Encoding
end

