-- ==== Sys2Proof/Laws/Step.lean ====
section
/-! SUPPORT. What a step can do, said once: by the event it takes, and by whether the transaction is accepted. -/

namespace Sys2Proof.Machine

/-- A transaction always has a next state: it is accepted, or refused by name (00_scope.md R12, 60_exceptions.md R86). -/
theorem exec_cases (i : Instr) (s : State) :
    (∃ t, s.Accepting ∧ exec i s = .next t) ∨
    (∃ why, s.blocked = some why ∧ ¬ s.Accepting ∧ exec i s = .next (s.refuse why)) := by
  cases i with
  | readByte sp a | readWord sp a | readLong sp a =>
    rcases State.readTransaction_cases _ sp a s with ⟨h, e⟩ | h
    · exact .inl ⟨_, h, e⟩
    · exact .inr h
  | writeByte sp a v | writeWord sp a v | writeLong sp a v =>
    rcases State.writeTransaction_cases _ sp a v s with ⟨h, e⟩ | h
    · exact .inl ⟨_, h, e⟩
    · exact .inr h

/-- An accepted transaction, read or write, whichever it is. -/
theorem exec_accepted (i : Instr) {s : State} (h : s.Inv) (ha : s.Accepting) :
    ∃ m ps d ans, exec i s = .next { s with
        mem := m
        pages := ps
        history := s.history ++ [⟨i.op, i.space, i.addr, d⟩]
        response := ans } ∧
      (∀ p, m.read p = Record.after s.size ⟨i.op, i.space, i.addr, d⟩ p (s.mem.read p)) ∧
      (∀ g ∈ s.pages, g ∈ ps) ∧ State.Inv { s with mem := m, pages := ps } := by
  cases i with
  | readByte sp a | readWord sp a | readLong sp a =>
    obtain ⟨ps, e, h1, _, h3⟩ := State.readTransaction_accepted _ sp a h ha
    exact ⟨s.mem, ps, _, _, e, fun _ => rfl, fun g hg => (h1 g).2 (.inl hg), h3⟩
  | writeByte sp a v | writeWord sp a v | writeLong sp a v =>
    obtain ⟨m, ps, e, h0, h1, h3⟩ := State.writeTransaction_accepted _ sp a v h ha
    exact ⟨m, ps, _, _, e, h0, fun g hg => (h1 g).2 (.inl hg), h3⟩

/-- A step by the event it takes. -/
theorem step_cases (s : State) :
    (s.pending = [] ∧ step s = .refused .noEvent) ∨
    (∃ e rest, s.pending = e :: rest ∧ step s = handle e { s with pending := rest }) := by
  unfold step
  cases h : s.pending with
  | nil => exact .inl ⟨rfl, rfl⟩
  | cons e rest => exact .inr ⟨e, rest, rfl, rfl⟩

/-- A request spells an instruction, or is refused by the decoder's reason. -/
theorem decoded_cases (r : Request) (s : State) (run : Instr → State → Host.Outcome State Fault Refusal) :
    (∃ i, decode r = .ok i ∧ decoded r s run = run i s) ∨
    (∃ e, decode r = .error e ∧ decoded r s run = .next (s.refuse (.undecodable e))) := by
  unfold decoded
  cases h : decode r with
  | ok i => exact .inl ⟨i, rfl, rfl⟩
  | error e => exact .inr ⟨e, rfl, rfl⟩

/-- A served request runs the instruction it spells, or is refused. -/
theorem serve_cases (r : Request) (s : State) :
    (∃ i, decode r = .ok i ∧ serve r s = exec i s) ∨
    (∃ e, decode r = .error e ∧ serve r s = .next (s.refuse (.undecodable e))) :=
  decoded_cases r s exec

/-- An issued request is accepted and stands in flight, or is refused at once. -/
theorem issue_cases (r : Request) (s : State) :
    (∃ i, decode r = .ok i ∧ s.Accepting ∧ issue r s = .next { s with inFlight := some i, response := .nothing }) ∨
    (∃ why, (s.blocked = some why ∨ ∃ e, decode r = .error e ∧ why = .undecodable e) ∧
      issue r s = .next (s.refuse why)) := by
  rcases decoded_cases r s takeUp with ⟨i, hd, h⟩ | ⟨e, hd, h⟩
  · cases hb : s.blocked with
    | none => exact .inl ⟨i, hd, State.blocked_eq_none.1 hb, by simpa [issue, takeUp, hb] using h⟩
    | some why => exact .inr ⟨why, .inl rfl, by simpa [issue, takeUp, hb] using h⟩
  · exact .inr ⟨_, .inr ⟨e, hd, rfl⟩, h⟩

/-- An event with a next state: the mark was unset, and it is a construction, a transaction served, one put in flight, one
refused, one completed, or a release. -/
theorem handle_next_cases {e : Event} {s t : State} (h : handle e s = .next t) :
    s.refused = false ∧
    ((∃ n, e = .construct n ∧ t = s.construct n) ∨
     (∃ r, e = .request r ∧ serve r s = .next t) ∨
     (∃ r i, e = .issue r ∧ decode r = .ok i ∧ s.Accepting ∧ t = { s with inFlight := some i, response := .nothing }) ∨
     (∃ r why, e = .issue r ∧ t = s.refuse why) ∨
     (∃ i, e = .complete ∧ s.inFlight = some i ∧ exec i { s with inFlight := none } = .next t) ∨
     (e = .release ∧ s.life = .live ∧ t = s.release)) := by
  obtain ⟨hr, h⟩ : s.refused = false ∧ perform e s = .next t := by
    cases hr : s.refused <;> simp_all [handle]
  refine ⟨hr, ?_⟩
  cases e with
  | construct n => exact .inl ⟨n, rfl, (Host.Outcome.next.inj h).symm⟩
  | request r => exact .inr (.inl ⟨r, rfl, h⟩)
  | issue r =>
    rcases issue_cases r s with ⟨i, hd, ha, hi⟩ | ⟨why, _, hi⟩
    · exact .inr (.inr (.inl ⟨r, i, rfl, hd, ha, (Host.Outcome.next.inj (hi.symm.trans h)).symm⟩))
    · exact .inr (.inr (.inr (.inl ⟨r, why, rfl, (Host.Outcome.next.inj (hi.symm.trans h)).symm⟩)))
  | complete =>
    cases hf : s.inFlight with
    | none => simp [perform, complete, hf] at h
    | some i => exact .inr (.inr (.inr (.inr (.inl ⟨i, rfl, rfl, by simpa [perform, complete, hf] using h⟩))))
  | release =>
    by_cases hl : s.life = .live
    · exact .inr (.inr (.inr (.inr (.inr ⟨rfl, hl, by simpa [perform, endSession, hl] using h.symm⟩))))
    · simp [perform, endSession, hl] at h

/-- With the mark set no event has a next state (00_scope.md R12, 92_eei_decisions.md D4). -/
theorem handle_marked (e : Event) {s : State} (h : s.refused = true) : handle e s = .refused .runRefused := by
  simp [handle, h]

/-- No event faults (60_exceptions.md R86). -/
theorem no_fault (r : Fault) : False := nomatch r

end Sys2Proof.Machine
end

