-- ==== Sys2Proof/Tests/Slice0.lean ====
section
/-! SUPPORT. Our own tests. Expected values are those of spec/95_test_vectors.md, 30_encoding.md R69 and the rules named; every witness shows that a statement's hypotheses can be met together. -/

namespace Sys2Proof.Tests

open Sys2Proof.Machine

/-! Ill-formed terms, one for each check of WellFormed. -/

theorem test_resOk_refuses_bit_6 : (Request.mk 0x48#8 0#32 0#32).wellFormed = false := by decide
theorem test_resOk_refuses_bit_7 : (Request.mk 0x88#8 0#32 0#32).wellFormed = false := by decide
theorem test_fcOk_refuses_code_0 : (Request.mk 0x04#8 0#32 0#32).wellFormed = false := by decide
theorem test_fcOk_refuses_code_7 : (Request.mk 0x3C#8 0#32 0#32).wellFormed = false := by decide
theorem test_szOk_refuses_size_3 : (Request.mk 0x0B#8 0#32 0#32).wellFormed = false := by decide
theorem test_sizeOk_refuses_zero : (Params.mk 0 12 false).wellFormed = false := by decide
theorem test_sizeOk_refuses_above_maximum : (Params.mk 0x1000001 12 false).wellFormed = false := by decide
theorem test_pageBitsOk_refuses_25 : (Params.mk 0x1000 25 true).wellFormed = false := by decide

/-! Words written out from 30_encoding.md R61 and R69: `00 fff r ss`. -/

theorem test_decode_readByte : decodeTableWord 8 0b00110100 = some (.readByte .supervisorProgram 0#32) := by decide
theorem test_decode_readByte_user_data : decodeTableWord 8 0b00001100 = some (.readByte .userData 0#32) := by decide
theorem test_decode_readWord : decodeTableWord 8 0b00001101 = some (.readWord .userData 0#32) := by decide
theorem test_decode_readLong : decodeTableWord 8 0b00010110 = some (.readLong .userProgram 0#32) := by decide
theorem test_decode_writeByte : decodeTableWord 8 0b00001000 = some (.writeByte .userData 0#32 0#32) := by decide
theorem test_decode_writeWord : decodeTableWord 8 0b00101001 = some (.writeWord .supervisorData 0#32 0#32) := by decide
theorem test_decode_writeLong : decodeTableWord 8 0b00101010 = some (.writeLong .supervisorData 0#32 0#32) := by decide

/-- A request `2A / 00001000 / 12345678` as one number (log 18). -/
theorem test_ofBits_takes_cmd_addr_wdata :
    Request.ofBits 0x12345678000010002A = ⟨0x2A#8, 0x1000#32, 0x12345678#32⟩ := by decide

/-- 95_test_vectors.md 2.4: `0x03` names the function code, not the size. -/
theorem test_decode_names_function_code_before_size :
    decode ⟨0x03#8, 0#32, 0#32⟩ = .error .unrepresentableFunctionCode := by decide
/-- 95_test_vectors.md 2.4: `0xEE`. -/
theorem test_decode_names_reserved_bits_first : decode ⟨0xEE#8, 0#32, 0#32⟩ = .error .reservedBits := by decide
theorem test_decode_refuses_reserved_size : decode ⟨0x37#8, 0#32, 0#32⟩ = .error .reservedSize := by decide

/-! Translation and pages, 95_test_vectors.md 2.1 and 2.2. -/

theorem test_translate_drops_upper_lines : translate 0x1000000 0x12345678#32 = 0x345678 := by decide
theorem test_translate_mod_3000 : translate 3000 0x00FFFFFF#32 = 0x4BF := by decide
theorem test_translate_size_555555 : translate 0x555555 0x00FFFFFF#32 = 0 := by decide
theorem test_page_of_12345 : pageIndex 12 0x12345 = 0x12 ∧ pageOffset 12 0x12345 = 0x345 := by decide
theorem test_page_of_top_with_16_bits : pageIndex 16 0xFFFFFF = 0xFF ∧ pageOffset 16 0xFFFFFF = 0xFFFF := by decide

/-! One step on small states. -/

/-- A live instance of the given size that holds the bytes listed, `PAGE_BITS = 12`, reads not allocating. -/
def holding (size : Nat) (m : Memory) : State :=
  { State.fresh ⟨size, 12, false⟩ with
    mem := m
    pages := m.foldr (fun c ps => insertPage (pageIndex 12 c.1) ps) [] }

/-- What the caller sees of a step that serves the request: the answer, the bytes and the allocated pages afterwards. -/
def served (cmd : Cmd) (a : Addr) (v : Word) (s : State) : Option (Response × Memory × List Nat) :=
  match step { s with pending := [.request ⟨cmd, a, v⟩] } with
  | .next t => some (t.response, t.mem, t.pages)
  | _ => none

/-- 95_test_vectors.md 2.5. -/
theorem test_readByte_aliases : served 0x0C#8 0xAB001234#32 0#32 (holding 0x1000000 [(0x1234, 0x5A#8)]) =
    some (.rdata 0x5A#32, [(0x1234, 0x5A#8)], [1]) := by decide
/-- 95_test_vectors.md 2.5: the fresh state, no allocation by a read. -/
theorem test_readByte_unwritten : served 0x2C#8 0x00ABCDEF#32 0#32 (holding 0x1000000 []) =
    some (.rdata 0#32, [], []) := by decide
/-- 95_test_vectors.md 2.5: top wrap. -/
theorem test_readWord_wraps_at_top :
    served 0x0D#8 0x00FFFFFF#32 0#32 (holding 0x1000000 [(0, 0x5A#8), (0xFFFFFF, 0xA5#8)]) =
    some (.rdata 0xA55A#32, [(0, 0x5A#8), (0xFFFFFF, 0xA5#8)], [0, 0xFFF]) := by decide
/-- 95_test_vectors.md 2.5: wrap at `SIZE`. -/
theorem test_readWord_wraps_at_size : served 0x0D#8 2999#32 0#32 (holding 3000 [(2999, 0x77#8)]) =
    some (.rdata 0x7700#32, [(2999, 0x77#8)], [0]) := by decide
/-- 95_test_vectors.md 2.5: two pages. -/
theorem test_readLong_across_pages :
    served 0x36#8 0xFFE#32 0#32
      (holding 0x1000000 [(0xFFE, 0xCA#8), (0xFFF, 0xFE#8), (0x1000, 0xBA#8), (0x1001, 0xBE#8)]) =
    some (.rdata 0xCAFEBABE#32, [(0xFFE, 0xCA#8), (0xFFF, 0xFE#8), (0x1000, 0xBA#8), (0x1001, 0xBE#8)], [0, 1]) := by
  decide
/-- 95_test_vectors.md 2.5: `SIZE = 1`. -/
theorem test_readLong_size_1 : served 0x0E#8 7#32 0#32 (holding 1 [(0, 0xEF#8)]) =
    some (.rdata 0xEFEFEFEF#32, [(0, 0xEF#8)], [0]) := by decide
/-- 20_memory.md R40: with `READ_ALLOCATES` a read allocates the page and returns zero. -/
theorem test_readByte_allocates :
    served 0x2C#8 0x00ABCDEF#32 0#32 { holding 0x1000000 [] with readAllocates := true } =
    some (.rdata 0#32, [], [0xABC]) := by decide

/-- 95_test_vectors.md 2.6: bit 8 ignored. -/
theorem test_writeByte_truncates : served 0x08#8 0x10#32 0x1FF#32 (holding 0x1000000 []) =
    some (.written, [(0x10, 0xFF#8)], [0]) := by decide
/-- A zero byte written over another is no longer listed. -/
theorem test_writeByte_zero : served 0x28#8 0xFF345678#32 0#32 (holding 0x1000000 [(0x345678, 0x9C#8)]) =
    some (.written, [], [0x345]) := by decide
/-- 95_test_vectors.md 2.6: odd, two pages. -/
theorem test_writeWord_across_pages : served 0x29#8 0xFFF#32 0xBEEF#32 (holding 0x1000000 []) =
    some (.written, [(0xFFF, 0xBE#8), (0x1000, 0xEF#8)], [0, 1]) := by decide
/-- 95_test_vectors.md 2.6: both bytes hit index 0 (20_memory.md R45 case 2). -/
theorem test_writeWord_collides : served 0x29#8 0x00FFFFFF#32 0xABCD#32 (holding 0x555555 []) =
    some (.written, [(0, 0xCD#8)], [0]) := by decide
/-- 95_test_vectors.md 2.6: top wrap. -/
theorem test_writeLong_wraps_at_top : served 0x2A#8 0x00FFFFFE#32 0x11223344#32 (holding 0x1000000 []) =
    some (.written, [(0, 0x33#8), (1, 0x44#8), (0xFFFFFE, 0x11#8), (0xFFFFFF, 0x22#8)], [0, 0xFFF]) := by decide
/-- 95_test_vectors.md 2.6: `SIZE = 3`. -/
theorem test_writeLong_size_3 : served 0x2A#8 0#32 0x11223344#32 (holding 3 []) =
    some (.written, [(0, 0x44#8), (1, 0x22#8), (2, 0x33#8)], [0]) := by decide

/-- The state after a construction, from before any. -/
def constructed (n : Nat) : Host.Outcome State Fault Refusal :=
  step { State.unconstructed 12 false with pending := [.construct n] }

/-- 95_test_vectors.md 2.7. -/
theorem test_construct_zero : constructed 0 =
    .next { State.unconstructed 12 false with response := .constructError .sizeZero 0 } := by rfl
theorem test_construct_too_large : constructed 0x1000001 =
    .next { State.unconstructed 12 false with response := .constructError .sizeTooLarge 0x1000001 } := by rfl
theorem test_construct_3000 : constructed 3000 = .next (State.fresh ⟨3000, 12, false⟩) := by rfl

/-- 95_test_vectors.md 2.8: before any `NEW`. -/
theorem test_read_before_construction :
    served 0x0C#8 0#32 0#32 (State.unconstructed 12 false) = some (.refused .unconstructed, [], []) := by decide
/-- 95_test_vectors.md 2.8: a second transaction while one is in flight. -/
theorem test_read_while_in_flight :
    served 0x0C#8 0#32 0#32 { holding 8 [] with inFlight := some (.readByte .userData 0#32) } =
    some (.refused .overlapping, [], []) := by decide
/-- 95_test_vectors.md 2.8: `cmd = 0x0B` on a live instance. -/
theorem test_undecodable_request :
    served 0x0B#8 0#32 0#32 (holding 8 [(3, 7#8)]) = some (.refused (.undecodable .reservedSize), [(3, 7#8)], [0]) := by
  decide

/-- What an issued request leaves: the answer, the mark, and whether a transaction is in flight. -/
def issued (cmd : Cmd) (s : State) : Option (Response × Bool × Bool) :=
  match step { s with pending := [.issue ⟨cmd, 0#32, 0#32⟩] } with
  | .next t => some (t.response, t.refused, t.inFlight.isSome)
  | _ => none

theorem test_issue_accepted : issued 0x0C#8 (holding 8 []) = some (.nothing, false, true) := by decide
/-- 30_encoding.md R67: `0x0F` is refused when it is issued. -/
theorem test_issue_undecodable :
    issued 0x0F#8 (holding 8 []) = some (.refused (.undecodable .reservedSize), true, false) := by decide
/-- 70_reset_and_hazards.md R106, R107. -/
theorem test_issue_after_release : issued 0x0C#8 (holding 8 []).release = some (.refused .released, true, false) := by
  decide
/-- 70_reset_and_hazards.md R107. -/
theorem test_issue_before_construction :
    issued 0x0C#8 (State.unconstructed 12 false) = some (.refused .unconstructed, true, false) := by decide
/-- 92_eei_decisions.md D4: the mark is kept, the run does not continue. -/
theorem test_no_construction_after_refusal :
    step { (holding 8 []) with refused := true, pending := [.construct 8] } = .refused .runRefused := by rfl

/-- From reset, the very next step runs the word put where it is taken. -/
theorem test_withFetchWord_runs :
    step (State.reset.withFetchWord 8 0x2A) = exec (.writeLong .supervisorData 0#32 0#32) State.reset := by rfl

/-- 30_encoding.md R72. -/
theorem test_render : renderInstr (.writeLong .supervisorData 0x1000#32 0x12345678#32) =
    "WRITE_LONG SUPERVISOR_DATA, 0x00001000, 0x12345678" := by decide
theorem test_parse_of_render :
    parseLine (renderInstr (.readWord .userProgram 0xFFF#32)) = some (.request (encode (.readWord .userProgram 0xFFF#32))) := by
  decide

/-! Witnesses: the hypotheses of the statements can be met together. -/

/-- A live instance of the full size with bytes at both ends. -/
def sample : State := holding 0x1000000 [(0, 0x5A#8), (0xFFFFFF, 0xA5#8)]

theorem sample_inv : sample.Inv := by constructor <;> decide
theorem sample_accepting : sample.Accepting := by decide

/-- The smallest instance, where every constituent byte collides. -/
def smallest : State := holding 1 [(0, 0xEF#8)]

theorem smallest_inv : smallest.Inv := by constructor <;> decide

theorem witness_DecoderChecksInOrder_reserved : (Request.mk 0x40#8 0#32 0#32).cmd.extractLsb' 6 2 ≠ 0#2 := by decide
theorem witness_DecoderChecksInOrder_code :
    (Request.mk 0x3F#8 0#32 0#32).cmd.extractLsb' 6 2 = 0#2 ∧
    (Request.mk 0x3F#8 0#32 0#32).cmd.extractLsb' 3 3 ∈ [0#3, 3#3, 4#3, 7#3] := by decide
theorem witness_DecoderChecksInOrder_size :
    (Request.mk 0x37#8 0#32 0#32).cmd.extractLsb' 6 2 = 0#2 ∧
    (Request.mk 0x37#8 0#32 0#32).cmd.extractLsb' 3 3 ∈ [1#3, 2#3, 5#3, 6#3] ∧
    (Request.mk 0x37#8 0#32 0#32).cmd.extractLsb' 0 2 = 3#2 := by decide
theorem witness_DecoderChecksInOrder_legal :
    (Request.mk 0x36#8 0#32 0#32).cmd.extractLsb' 6 2 = 0#2 ∧
    (Request.mk 0x36#8 0#32 0#32).cmd.extractLsb' 3 3 ∈ [1#3, 2#3, 5#3, 6#3] ∧
    (Request.mk 0x36#8 0#32 0#32).cmd.extractLsb' 0 2 ≠ 3#2 := by decide
theorem witness_TranslationOfAddresses : 0 < 3000 ∧ (0xFFF447#32).toNat < 2 ^ 24 ∧
    (0xFFFFFF#32).toNat = (0xFFF447#32).toNat + 3000 ∧ (0xFFFFFF#32).toNat < 2 ^ 24 := by decide
theorem witness_PowerOfTwoSizeMasks : 24 ≤ 24 := by decide
theorem witness_CollidingConstituentBytes :
    0 < (holding 0x555555 []).size ∧ 0 < 1 ∧ 1 < 4 ∧
    (holding 0x555555 []).physOf 0xFFFFFF#32 0 = (holding 0x555555 []).physOf 0xFFFFFF#32 1 := by decide
theorem witness_CollidingConstituentBytes_power : (holding 4 []).size = 2 ^ 2 ∧ 2 ≤ 2 ∧ 2 ≤ 24 := by decide
theorem witness_MaskedAddressAliases : sample.Accepting := sample_accepting
theorem witness_ByteReadThroughPageTable_allocated :
    smallest.lookup (smallest.pg 0) = some [(0, 0xEF#8)] := by decide
theorem witness_ByteReadThroughPageTable_unallocated :
    sample.lookup (sample.pg 0x1000) = none ∧ sample.readAllocates = false := by decide
theorem witness_ByteReadThroughPageTable_allocates :
    State.lookup { sample with readAllocates := true } 1 = none ∧
    State.pg { sample with readAllocates := true } 0x1000 = 1 := by decide
theorem witness_ByteReadThroughPageTable_inv : sample.Inv ∧ 0xFFFFFF < sample.size := ⟨sample_inv, by decide⟩
theorem witness_ByteWriteStoresOneByte : sample.Inv ∧ sample.life = .live ∧ 0xFFFFFF < sample.size :=
  ⟨sample_inv, by decide⟩
theorem witness_StorageIsThePageTable : sample.Inv := sample_inv
theorem witness_PagesStayAllocated :
    sample.Inv ∧ sample.lookup 0xFFF = some [(0xFFF, 0xA5#8)] ∧ sample.pg 0xFFFFFF = 0xFFF ∧
    ∀ j < (Op.width .writeLong).bytes, sample.physOf 0x00FFFFFB#32 j ≠ 0xFFFFFF := ⟨sample_inv, by decide⟩

/-- The sample with another page size, another page more, and reads that allocate. -/
def sampleElsewhere : State :=
  { sample with pageBits := 16, pages := [0, 7, 0xFF], readAllocates := true, pending := sample.pending }

theorem witness_PageTableIsInvisible :
    sample.Inv ∧ sampleElsewhere.Inv ∧ sample.view = sampleElsewhere.view ∧ sample ≠ sampleElsewhere :=
  ⟨sample_inv, by constructor <;> decide, by decide, by decide⟩
theorem witness_ReadByteResult : sample.Inv ∧ sample.Accepting := ⟨sample_inv, sample_accepting⟩
theorem witness_ReadWordResult : smallest.Inv ∧ smallest.Accepting := ⟨smallest_inv, by decide⟩
theorem witness_ReadLongResult : sample.Inv ∧ sample.Accepting := ⟨sample_inv, sample_accepting⟩
theorem witness_WriteByteResult : smallest.Inv ∧ smallest.Accepting := ⟨smallest_inv, by decide⟩
theorem witness_WriteWordResult : smallest.Inv ∧ smallest.Accepting := ⟨smallest_inv, by decide⟩
theorem witness_WriteLongResult : sample.Inv ∧ sample.Accepting := ⟨sample_inv, sample_accepting⟩
theorem witness_WriteThenReadReturnsValue :
    sample.Inv ∧ sample.Accepting ∧ sample.physOf 0xFFFFFF#32 0 ≠ sample.physOf 0xFFFFFF#32 1 ∧
    (∀ j < 4, ∀ i < j, sample.physOf 0xFFFFFE#32 i ≠ sample.physOf 0xFFFFFE#32 j) :=
  ⟨sample_inv, sample_accepting, by decide, by decide⟩
theorem witness_NarrowReadsOfWideWrite :
    (holding 4 []).Inv ∧ (holding 4 []).Accepting ∧ (holding 4 []).physOf 3#32 0 ≠ (holding 4 []).physOf 3#32 1 ∧
    (∀ j < 4, ∀ i < j, (holding 4 []).physOf 3#32 i ≠ (holding 4 []).physOf 3#32 j) :=
  ⟨by constructor <;> decide, by decide, by decide, by decide⟩
theorem witness_RepeatedTransactionIsIdempotent : smallest.Inv ∧ smallest.Accepting := ⟨smallest_inv, by decide⟩
theorem witness_AddressSpaceGatesNothing : sample.Accepting := sample_accepting
theorem witness_NoAccessTimeException : sample.Accepting := sample_accepting
theorem witness_UnacceptedTransactionChangesNothing :
    (State.unconstructed 12 false).life = .unconstructed ∧ sample.release.life = .released ∧
    sample.life = .live ∧ State.inFlight { sample with inFlight := some (.readByte .userData 0#32) } ≠ none := by decide
theorem witness_MachineImplementsTheBus : sample.Inv ∧ sample.Accepting := ⟨sample_inv, sample_accepting⟩
theorem witness_StepRunsDecodedInstruction :
    decode ⟨0x0C#8, 0#32, 0#32⟩ = .ok (.readByte .userData 0#32) ∧ sample.refused = false ∧
    State.pending { sample with pending := [.request ⟨0x0C#8, 0#32, 0#32⟩] } = .request ⟨0x0C#8, 0#32, 0#32⟩ :: [] := by
  decide
/-- A transaction in flight whose completion is the next event. -/
def sampleInFlight : State := { sample with inFlight := some (.readByte .userData 0#32), pending := [.complete] }

theorem witness_StepRunsDecodedInstruction_in_flight :
    decode ⟨0x0C#8, 0#32, 0#32⟩ = .ok (.readByte .userData 0#32) ∧ sampleInFlight.refused = false ∧
    sampleInFlight.pending = .complete :: [] ∧ sampleInFlight.inFlight = some (.readByte .userData 0#32) := by decide
theorem witness_StepRunsDecodedInstruction_issue :
    decode ⟨0x0C#8, 0#32, 0#32⟩ = .ok (.readByte .userData 0#32) ∧
    State.pending { sample with pending := [.issue ⟨0x0C#8, 0#32, 0#32⟩] } = .issue ⟨0x0C#8, 0#32, 0#32⟩ :: [] ∧
    sample.Accepting := by decide
theorem witness_IssuedTransactionCompletesAsWaitedOne :
    sample.Accepting ∧ sample.refused = false ∧ (Request.mk 0x0C#8 0#32 0#32).wellFormed = true ∧
    State.pending { sample with pending := [.issue ⟨0x0C#8, 0#32, 0#32⟩, .complete] } =
      .issue ⟨0x0C#8, 0#32, 0#32⟩ :: .complete :: [] := by decide
/-- An instance, and one event to come. -/
def facing (e : Event) (s : State) : State := { s with pending := [e] }

theorem witness_UndecodableRequestIsRefused :
    (Request.mk 0x0B#8 0#32 0#32).wellFormed = false ∧ sample.refused = false ∧
    (facing (.request ⟨0x0B#8, 0#32, 0#32⟩) sample).pending = .request ⟨0x0B#8, 0#32, 0#32⟩ :: [] ∧
    (facing (.issue ⟨0x0B#8, 0#32, 0#32⟩) sample).pending = .issue ⟨0x0B#8, 0#32, 0#32⟩ :: [] := by decide
theorem witness_RequestOutsideTheSessionIsRefused :
    sample.release.life ≠ .live ∧ (State.unconstructed 12 false).life ≠ .live ∧ sample.release.refused = false ∧
    (Request.mk 0x0C#8 0#32 0#32).wellFormed = true ∧
    (facing (.request ⟨0x0C#8, 0#32, 0#32⟩) sample.release).pending = .request ⟨0x0C#8, 0#32, 0#32⟩ :: [] ∧
    (facing (.issue ⟨0x0C#8, 0#32, 0#32⟩) (State.unconstructed 12 false)).pending =
      .issue ⟨0x0C#8, 0#32, 0#32⟩ :: [] := by decide
/-- A transaction in flight, and the request that overlaps it next. -/
def sampleOverlap (e : Event) : State := { sample with inFlight := some (.readByte .userData 0#32), pending := [e] }

theorem witness_OverlappingTransactionIsRefused :
    (sampleOverlap (.issue ⟨0x0C#8, 0#32, 0#32⟩)).life = .live ∧
    (sampleOverlap (.issue ⟨0x0C#8, 0#32, 0#32⟩)).inFlight ≠ none ∧
    (sampleOverlap (.issue ⟨0x0C#8, 0#32, 0#32⟩)).refused = false ∧ (Request.mk 0x0C#8 0#32 0#32).wellFormed = true ∧
    (sampleOverlap (.issue ⟨0x0C#8, 0#32, 0#32⟩)).pending = .issue ⟨0x0C#8, 0#32, 0#32⟩ :: [] ∧
    (sampleOverlap (.request ⟨0x0C#8, 0#32, 0#32⟩)).pending = .request ⟨0x0C#8, 0#32, 0#32⟩ :: [] := by decide
/-- A state with the mark set, and an event to come. -/
def sampleMarked (e : Event) : State := { sample with refused := true, pending := [e] }

theorem witness_RefusalMarkEndsTheRun :
    (sampleMarked (.construct 8)).refused = true ∧ (sampleMarked (.construct 8)).pending = .construct 8 :: [] := by decide
theorem witness_RefusalMarkEndsTheRun_run :
    0 < 1 ∧ ∃ t, Host.Core.run Sys2Proof.core 1 { sample with pending := [.release] } = .next t := ⟨by decide, _, rfl⟩
theorem witness_ConstructionOutcomes :
    sample.refused = false ∧
    State.pending { sample with pending := [.construct 0x1000000] } = .construct 0x1000000 :: [] ∧
    0 < 0x1000000 ∧ 0x1000000 ≤ 2 ^ 24 ∧ 2 ^ 24 < 0x1000001 := by decide
theorem witness_FreshInstanceReadsZero :
    (Params.mk 1 24 true).wellFormed = true ∧ (Instr.readLong .userData 0xFFFFFFFF#32).op.isWrite = false := by decide
theorem witness_ConfigurationIsFixedInSession :
    State.pending { sample with pending := [.release] } = .release :: [] ∧
    step { sample with pending := [.release] } = .next sample.release := ⟨rfl, rfl⟩
theorem witness_ReleaseEndsTheSession :
    sample.life = .live ∧ sample.refused = false ∧
    State.pending { sample with pending := [.release] } = .release :: [] ∧
    State.inFlight { sampleInFlight with pending := [.release] } ≠ none := by decide
theorem witness_FreshStatesMeetTheInvariant : (Params.mk 0x1000000 0 true).wellFormed = true ∧ 24 ≤ 24 := by decide

/-- The sample with one record of the history that leaves it, and a read to come. -/
def sampleRun : State :=
  { sample with
    history := [⟨.writeWord, .userData, 0xFFFFFFFF#32, 0xA55A#32⟩]
    pending := [.request ⟨0x08#8, 0#32, 1#32⟩] }

theorem witness_StepKeepsTheInvariant : ∃ t, sampleRun.Inv ∧ step sampleRun = .next t :=
  ⟨_, by constructor <;> decide, rfl⟩

/-- 95_test_vectors.md 2.6, top wrap: the record's write is what the two bytes are. -/
theorem sampleRun_replays : sampleRun.Replays := by
  intro _ p
  show (if p = 0 then 0x5A#8 else if p = 0xFFFFFF then 0xA5#8 else 0#8) =
    (if (0 : Nat) = p then 0x5A#8 else if 0xFFFFFF = p then 0xA5#8 else 0#8)
  simp only [eq_comm]

theorem witness_StorageFollowsTheHistory : ∃ t, sampleRun.Inv ∧ sampleRun.Replays ∧ step sampleRun = .next t :=
  ⟨_, by constructor <;> decide, sampleRun_replays, rfl⟩
theorem witness_ContractIsSufficient :
    State.Inv { sample with pending := [.request ⟨0x0C#8, 0#32, 0#32⟩] } ∧ sample.Accepting ∧ sample.refused = false ∧
    State.pending { sample with pending := [.request ⟨0x0C#8, 0#32, 0#32⟩] } =
      [Request.mk 0x0C#8 0#32 0#32].map .request ∧
    (∀ r ∈ [Request.mk 0x0C#8 0#32 0#32], r.wellFormed = true) :=
  ⟨by constructor <;> decide, sample_accepting, by decide, by decide, by decide⟩

end Sys2Proof.Tests
end

