-- ==== Sys2Proof/Proofs/Runs.lean ====
section
/-! PROOFS. What a run that ends in a next state went through, and that no step is taken once the mark is set. -/

namespace Sys2Proof.Machine

/-- A run of one step more, by its first step. -/
theorem run_succ_eq_next_iff {M : Host.Core} {k : Nat} {s t : M.State} :
    M.run (k + 1) s = .next t ↔ ∃ u, M.step s = .next u ∧ M.run k u = .next t := by
  rw [Host.Core.run]
  cases M.step s with
  | next u => simp
  | fault r => simp
  | refused r => simp

/-- 92_eei_decisions.md D4: with the mark set the next event of the caller is not taken. -/
theorem step_marked {s : State} {e : Event} {rest : List Event} (hr : s.refused = true)
    (hp : s.pending = e :: rest) : step s = .refused .runRefused := by
  rcases step_cases s with ⟨hnil, _⟩ | ⟨_, _, _, hstep⟩
  · simp [hp] at hnil
  · exact hstep.trans (handle_marked _ hr)

/-- A state that a step went on from is unmarked. -/
theorem unmarked_of_step_eq_next {s t : State} (h : step s = .next t) : s.refused = false := by
  rcases step_cases s with ⟨_, hnone⟩ | ⟨_, _, _, hstep⟩
  · simp [hnone] at h
  · exact (handle_next_cases (hstep.symm.trans h)).1

/-- Every state a run passes before its last is there, and is unmarked: each of them is one a step went on from. -/
theorem run_earlier_unmarked {m n : Nat} {s t : State} (hmn : m < n)
    (h : Host.Core.run Sys2Proof.core n s = .next t) :
    ∃ u, Host.Core.run Sys2Proof.core m s = .next u ∧ u.refused = false := by
  induction m generalizing n s with
  | zero =>
    obtain ⟨k, rfl⟩ := Nat.exists_eq_add_one.2 hmn
    obtain ⟨_, hstep, _⟩ := run_succ_eq_next_iff.1 h
    exact ⟨s, rfl, unmarked_of_step_eq_next hstep⟩
  | succ m ih =>
    obtain ⟨k, rfl⟩ := Nat.exists_eq_add_one.2 (Nat.zero_lt_of_lt hmn)
    obtain ⟨s', hstep, hrest⟩ := run_succ_eq_next_iff.1 h
    obtain ⟨u, hu, hunmarked⟩ := ih (Nat.lt_of_succ_lt_succ hmn) hrest
    exact ⟨u, run_succ_eq_next_iff.2 ⟨s', hstep, hu⟩, hunmarked⟩

/-- Settles O42: a marked state takes no event, so every state that a run went on from was unmarked, by induction on the
number of steps before it. -/
theorem refusalMarkEndsTheRun : Obligations.RefusalMarkEndsTheRun :=
  ⟨fun _ _ _ hr hp => step_marked hr hp, fun _ _ _ _ hmn h => run_earlier_unmarked hmn h⟩

end Sys2Proof.Machine
end

section
/-! PROOFS. The four AddressSpace values and the function codes that belong to one. -/

namespace Sys2Proof

/-- 10_state.md R22: two modes and two segments make four values. -/
theorem AddressSpace.eq_one_of_four (s : AddressSpace) :
    s = .supervisorProgram ∨ s = .supervisorData ∨ s = .userProgram ∨ s = .userData := by
  rcases s with ⟨_ | _, _ | _⟩ <;> simp

theorem AddressSpace.fc_not_mem_unused (s : AddressSpace) : s.fc ∉ [0#3, 3#3, 4#3, 7#3] := by
  rcases s.eq_one_of_four with rfl | rfl | rfl | rfl <;> decide

/-- A code that no value has stands for none. -/
theorem AddressSpace.ofFc_eq_none_of_unused {c : BitVec 3} (hc : c ∈ [0#3, 3#3, 4#3, 7#3]) :
    AddressSpace.ofFc c = none := by
  refine Option.eq_none_iff_forall_ne_some.2 fun s hs => ?_
  exact s.fc_not_mem_unused (AddressSpace.ofFc_eq_some.1 hs ▸ hc)

/-- Settles O1: the codes are `fc` evaluated, and the unused ones follow from `ofFc` being the inverse of `fc`. -/
theorem functionCodesOfAddressSpaces : Obligations.FunctionCodesOfAddressSpaces :=
  ⟨rfl, rfl, rfl, rfl, AddressSpace.eq_one_of_four, by decide, AddressSpace.fc_not_mem_unused,
    fun _ hc => AddressSpace.ofFc_eq_none_of_unused hc⟩

end Sys2Proof
end

section
/-! PROOFS. The invariant holds of fresh and unconstructed states, and every step keeps it. -/

namespace Sys2Proof

theorem Params.wellFormed_iff {p : Params} :
    p.wellFormed = true ↔ (0 < p.size ∧ p.size ≤ Machine.maxSize) ∧ p.pageBits ≤ Machine.maxPageBits := by
  simp [Params.wellFormed, Params.sizeOk, Params.pageBitsOk]

namespace Machine

/-- With no storage and nothing in flight, the invariant is a legal configuration and no history before construction. -/
theorem State.Inv.of_empty {s : State} (hb : s.pageBits ≤ maxPageBits)
    (hs : s.life ≠ .unconstructed → 0 < s.size ∧ s.size ≤ maxSize) (hm : s.mem = []) (hp : s.pages = [])
    (hh : s.life = .unconstructed → s.history = []) (hf : s.inFlight = none) : s.Inv where
  pageBits_le := hb
  size_legal := hs
  dead_empty := fun _ => ⟨hm, hp⟩
  unconstructed_history := hh
  dead_idle := fun _ => hf
  mem_wf := hm ▸ Memory.wf_nil
  mem_lt := by simp [hm]
  mem_allocated := by simp [hm]
  pages_sorted := by simp [hp]
  pages_le := by simp [hp]

theorem State.fresh_inv {p : Params} (h : p.wellFormed = true) : (State.fresh p).Inv := by
  obtain ⟨hsize, hbits⟩ := Params.wellFormed_iff.1 h
  exact .of_empty hbits (fun _ => hsize) rfl rfl (fun _ => rfl) rfl

/-- 70_reset_and_hazards.md R103: an empty history leaves zero everywhere. -/
theorem State.fresh_replays (p : Params) : (State.fresh p).Replays := fun _ _ => rfl

theorem State.unconstructed_inv {b : Nat} (r : Bool) (hb : b ≤ maxPageBits) : (State.unconstructed b r).Inv :=
  .of_empty hb (fun h => absurd rfl h) rfl rfl (fun _ => rfl) rfl

/-- Settles O47: each of these states has no storage, no history and nothing in flight. -/
theorem freshStatesMeetTheInvariant : Obligations.FreshStatesMeetTheInvariant :=
  ⟨fun p h => ⟨State.fresh_inv h, State.fresh_replays p⟩, State.fresh_inv (by decide), State.fresh_replays _,
    fun _ r hb => State.unconstructed_inv r hb⟩

theorem State.Inv.refuse {s : State} (h : s.Inv) (why : RefuseReason) : (s.refuse why).Inv :=
  h.congr rfl rfl rfl rfl rfl h.unconstructed_history h.dead_idle

/-- Taking the next event off the list. -/
theorem State.Inv.with_pending {s : State} (h : s.Inv) (rest : List Event) : State.Inv { s with pending := rest } :=
  h.congr rfl rfl rfl rfl rfl h.unconstructed_history h.dead_idle

/-- A transaction in flight no more, before it completes. -/
theorem State.Inv.with_idle {s : State} (h : s.Inv) : State.Inv { s with inFlight := none } :=
  h.congr rfl rfl rfl rfl rfl h.unconstructed_history fun _ => rfl

/-- A live block takes a transaction up. -/
theorem State.Inv.with_inFlight {s : State} (h : s.Inv) (hl : s.life = .live) (i : Instr) (ans : Response) :
    State.Inv { s with inFlight := some i, response := ans } :=
  h.congr rfl rfl rfl rfl rfl h.unconstructed_history fun hn => absurd hl hn

theorem State.Inv.raiseConstructError {s : State} (h : s.Inv) (reason : ConstructReason) (n : Nat) :
    (s.raiseConstructError reason n).Inv :=
  h.congr rfl rfl rfl rfl rfl h.unconstructed_history h.dead_idle

theorem State.Inv.construct {s : State} (h : s.Inv) (n : Nat) : (s.construct n).Inv := by
  rcases s.construct_cases n with ⟨_, e⟩ | ⟨_, e⟩ | ⟨hpos, hle, e⟩
  · exact e ▸ h.raiseConstructError _ _
  · exact e ▸ h.raiseConstructError _ _
  · exact e ▸ .of_empty h.pageBits_le (fun _ => ⟨hpos, hle⟩) rfl rfl (fun _ => rfl) rfl

theorem State.Inv.release {s : State} (h : s.Inv) (hl : s.life = .live) : s.release.Inv :=
  .of_empty h.pageBits_le (fun _ => h.size_legal (by simp [hl])) rfl rfl (fun hu => nomatch hu) rfl

/-- A blocked transaction is refused by the name of what blocks it. -/
theorem exec_of_blocked {s : State} {why : RefuseReason} (hb : s.blocked = some why) (i : Instr) :
    exec i s = .next (s.refuse why) := by
  rcases exec_cases i s with ⟨_, ha, _⟩ | ⟨why', hb', _, e⟩
  · exact nomatch (State.blocked_eq_none.2 ha).symm.trans hb
  · obtain rfl := Option.some.inj (hb.symm.trans hb')
    exact e

/-- A transaction, accepted or refused, keeps the invariant. -/
theorem State.Inv.exec {s t : State} (h : s.Inv) {i : Instr} (he : exec i s = .next t) : t.Inv := by
  rcases exec_cases i s with ⟨_, ha, _⟩ | ⟨why, _, _, e⟩
  · obtain ⟨m, ps, d, ans, e, _, _, hi⟩ := exec_accepted i h ha
    obtain rfl := Host.Outcome.next.inj (e.symm.trans he)
    exact hi.congr rfl rfl rfl rfl rfl (fun hu => nomatch ha.1.symm.trans hu) (fun hn => absurd ha.1 hn)
  · obtain rfl := Host.Outcome.next.inj (e.symm.trans he)
    exact h.refuse why

/-- An event that is taken keeps the invariant, whichever it is. -/
theorem State.Inv.handle {s t : State} (h : s.Inv) {e : Event} (he : handle e s = .next t) : t.Inv := by
  obtain ⟨_, ⟨n, _, rfl⟩ | ⟨r, _, hr⟩ | ⟨r, i, _, _, ha, rfl⟩ | ⟨r, why, _, rfl⟩ | ⟨i, _, _, hc⟩ | ⟨_, hl, rfl⟩⟩ :=
    handle_next_cases he
  · exact h.construct n
  · rcases serve_cases r s with ⟨i, _, hi⟩ | ⟨e, _, hi⟩
    · exact h.exec (hi.symm.trans hr)
    · exact Host.Outcome.next.inj (hi.symm.trans hr) ▸ h.refuse _
  · exact h.with_inFlight ha.1 i _
  · exact h.refuse why
  · exact h.with_idle.exec hc
  · exact h.release hl

theorem State.Inv.step {s t : State} (h : s.Inv) (hs : step s = .next t) : t.Inv := by
  rcases step_cases s with ⟨_, hnone⟩ | ⟨e, rest, _, hstep⟩
  · exact nomatch hnone.symm.trans hs
  · exact (h.with_pending rest).handle (hstep.symm.trans hs)

/-- Settles O48: every event that is taken keeps the invariant, a transaction by what an accepted one leaves. -/
theorem stepKeepsTheInvariant : Obligations.StepKeepsTheInvariant := fun _ _ h hs => h.step hs

end Machine

end Sys2Proof
end

section
/-! PROOFS. What the page table holds: the storage, zeros in a new page, and through every transaction what no write stores to. -/

namespace Sys2Proof.Machine

/-- Settles O18: a page's byte is the storage's, and an unallocated page has no byte but zero. -/
theorem storageIsThePageTable : Obligations.StorageIsThePageTable := by
  intro s p h
  by_cases hg : s.pg p ∈ s.pages
  · rw [State.lookup_of_mem hg]
    exact (s.page_read p).symm
  · rw [State.lookup_of_not_mem hg]
    exact h.read_unallocated hg

/-- 10_state.md R30: allocation clears whatever the storage listed inside the page. -/
theorem State.allocate_page_self (s : State) (g : Nat) : (s.allocate g).page g = [] := by
  have hnone : (s.allocate g).mem.filter (fun c => s.pg c.1 == g) = [] := by simp [List.filter_filter]
  exact congrArg (List.map _) hnone

theorem State.lookup_allocate_self (s : State) (g : Nat) : (s.allocate g).lookup g = some [] := by
  rw [State.lookup_of_mem (by simp), State.allocate_page_self]

/-- Settles O19: the page that is looked up lists no byte. -/
theorem newPageHoldsZeros : Obligations.NewPageHoldsZeros :=
  fun s g => ⟨[], s.lookup_allocate_self g, Memory.read_nil⟩

theorem State.lookup_eq_some {s : State} {g : Nat} {page : Memory} :
    s.lookup g = some page ↔ g ∈ s.pages ∧ s.page g = page := by
  simp [State.lookup]

/-- A completed transaction keeps every byte, unless it is a write that stores to it (20_memory.md R45). -/
theorem Record.after_of_untouched {size : Nat} {r : Record} {p : Nat}
    (h : r.op.isWrite = false ∨ ∀ j < r.op.width.bytes, translate size (constituent r.addr j) ≠ p) (b : Byte) :
    r.after size p b = b := by
  unfold Record.after
  split
  · next hw =>
    have hne := h.resolve_left (by simp [hw])
    refine (List.foldl_ext _ (fun acc _ => acc) b fun acc j hj => ?_).trans (List.foldl_fixed _)
    exact if_neg (hne j (List.mem_range.1 hj))
  · rfl

/-- Settles O20: an accepted transaction only adds pages, and changes the bytes its record says; a refused one changes
neither pages nor bytes. -/
theorem pagesStayAllocated : Obligations.PagesStayAllocated := by
  intro i s h
  rcases exec_cases i s with ⟨_, ha, _⟩ | ⟨why, _, _, e⟩
  · obtain ⟨m, ps, d, ans, e, hm, hps, _⟩ := exec_accepted i h ha
    refine ⟨_, e, fun g page hg => ?_⟩
    obtain ⟨hmem, rfl⟩ := State.lookup_eq_some.1 hg
    refine ⟨_, State.lookup_of_mem (hps g hmem), ?_⟩
    rintro p rfl huntouched
    rw [State.page_read s p, ← Record.after_of_untouched (r := ⟨i.op, i.space, i.addr, d⟩) huntouched (s.mem.read p),
      ← hm p]
    exact State.page_read { s with mem := m, pages := ps } p
  · exact ⟨_, e, fun g page hg => ⟨page, hg, fun _ _ _ => rfl⟩⟩

end Sys2Proof.Machine
end

section
/-! PROOFS. Noninterference of the page table: states that agree on everything else go on to states that do. -/

namespace Sys2Proof.Machine

/-- Agreement through the view, as the second state written by means of the first: the three hidden fields are free. -/
theorem State.view_eq_iff {s t : State} :
    s.view = t.view ↔ ∃ ps b r, t = { s with pages := ps, pageBits := b, readAllocates := r } := by
  constructor
  · intro h
    refine ⟨t.pages, t.pageBits, t.readAllocates, ?_⟩
    exact congrArg
      (fun u : State => { u with pages := t.pages, pageBits := t.pageBits, readAllocates := t.readAllocates }) h.symm
  · rintro ⟨_, _, _, rfl⟩
    rfl

@[simp] theorem State.view_blocked (s : State) : s.view.blocked = s.blocked := rfl

section
variable {s t : State} (hv : s.view = t.view)
include hv

theorem State.blocked_of_view_eq : s.blocked = t.blocked := by simpa using congrArg State.blocked hv

theorem State.accepting_of_view_eq (ha : s.Accepting) : t.Accepting := by
  rw [← State.blocked_eq_none, ← State.blocked_of_view_eq hv]
  exact State.blocked_eq_none.2 ha

theorem State.refuse_view_of_view_eq (why : RefuseReason) : (s.refuse why).view = (t.refuse why).view :=
  congrArg (State.refuse why) hv

theorem State.construct_view_of_view_eq (n : Nat) : (s.construct n).view = (t.construct n).view := by
  obtain ⟨ps, b, r, rfl⟩ := State.view_eq_iff.1 hv
  unfold State.construct
  split
  · rfl
  · split <;> rfl

theorem State.release_view_of_view_eq : s.release.view = t.release.view := congrArg State.release hv

/-- An accepted read answers and records the value composed from the storage, which the view shows. -/
theorem State.readTransaction_view_of_view_eq (hs : s.Inv) (ht : t.Inv) (ha : s.Accepting) (op : Op)
    (sp : AddressSpace) (a : Addr) :
    viewOutcome (s.readTransaction op sp a) = viewOutcome (t.readTransaction op sp a) := by
  obtain ⟨_, e, _⟩ := State.readTransaction_accepted op sp a hs ha
  obtain ⟨_, e', _⟩ := State.readTransaction_accepted op sp a ht (State.accepting_of_view_eq hv ha)
  obtain ⟨_, _, _, rfl⟩ := State.view_eq_iff.1 hv
  rw [e, e']
  rfl

/-- An accepted write leaves storages that read alike, so they are one list by the canonical form. -/
theorem State.writeTransaction_view_of_view_eq (hs : s.Inv) (ht : t.Inv) (ha : s.Accepting) (op : Op)
    (sp : AddressSpace) (a : Addr) (v : Word) :
    viewOutcome (s.writeTransaction op sp a v) = viewOutcome (t.writeTransaction op sp a v) := by
  obtain ⟨m, _, e, hm, _, hi⟩ := State.writeTransaction_accepted op sp a v hs ha
  obtain ⟨m', _, e', hm', _, hi'⟩ :=
    State.writeTransaction_accepted op sp a v ht (State.accepting_of_view_eq hv ha)
  obtain ⟨_, _, _, rfl⟩ := State.view_eq_iff.1 hv
  obtain rfl : m = m' := Memory.ext_of_read hi.mem_wf hi'.mem_wf fun p => (hm p).trans (hm' p).symm
  rw [e, e']
  rfl

theorem exec_view_of_view_eq (hs : s.Inv) (ht : t.Inv) (i : Instr) :
    viewOutcome (exec i s) = viewOutcome (exec i t) := by
  rcases exec_cases i s with ⟨_, ha, _⟩ | ⟨why, hb, _, e⟩
  · cases i with
    | readByte sp a | readWord sp a | readLong sp a =>
      exact State.readTransaction_view_of_view_eq hv hs ht ha _ sp a
    | writeByte sp a v | writeWord sp a v | writeLong sp a v =>
      exact State.writeTransaction_view_of_view_eq hv hs ht ha _ sp a v
  · rw [e, exec_of_blocked ((State.blocked_of_view_eq hv).symm.trans hb)]
    exact congrArg Host.Outcome.next (State.refuse_view_of_view_eq hv why)

theorem takeUp_view_of_view_eq (i : Instr) : viewOutcome (takeUp i s) = viewOutcome (takeUp i t) := by
  obtain ⟨_, _, _, rfl⟩ := State.view_eq_iff.1 hv
  unfold takeUp
  rw [← State.blocked_of_view_eq hv]
  cases s.blocked <;> rfl

/-- The decoder does not look at the state, so a request goes the way of the instruction it spells. -/
theorem decoded_view_of_view_eq (r : Request) {run : Instr → State → Host.Outcome State Fault Refusal}
    (hrun : ∀ i, viewOutcome (run i s) = viewOutcome (run i t)) :
    viewOutcome (decoded r s run) = viewOutcome (decoded r t run) := by
  unfold decoded
  cases decode r with
  | ok i => exact hrun i
  | error e => exact congrArg Host.Outcome.next (State.refuse_view_of_view_eq hv _)

theorem complete_view_of_view_eq (hs : s.Inv) (ht : t.Inv) : viewOutcome (complete s) = viewOutcome (complete t) := by
  have hf : s.inFlight = t.inFlight := by simpa using congrArg State.inFlight hv
  unfold complete
  rw [← hf]
  cases s.inFlight with
  | none => rfl
  | some i =>
    exact exec_view_of_view_eq (congrArg (fun u : State => { u with inFlight := none }) hv) hs.with_idle ht.with_idle i

theorem endSession_view_of_view_eq : viewOutcome (endSession s) = viewOutcome (endSession t) := by
  have hl : s.life = t.life := by simpa using congrArg State.life hv
  unfold endSession
  rw [← hl]
  split
  · exact congrArg Host.Outcome.next (State.release_view_of_view_eq hv)
  · rfl

theorem perform_view_of_view_eq (hs : s.Inv) (ht : t.Inv) (e : Event) :
    viewOutcome (perform e s) = viewOutcome (perform e t) := by
  cases e with
  | construct n => exact congrArg Host.Outcome.next (State.construct_view_of_view_eq hv n)
  | request r => exact decoded_view_of_view_eq hv r (exec_view_of_view_eq hv hs ht)
  | issue r => exact decoded_view_of_view_eq hv r (takeUp_view_of_view_eq hv)
  | complete => exact complete_view_of_view_eq hv hs ht
  | release => exact endSession_view_of_view_eq hv

theorem handle_view_of_view_eq (hs : s.Inv) (ht : t.Inv) (e : Event) :
    viewOutcome (handle e s) = viewOutcome (handle e t) := by
  have hr : s.refused = t.refused := by simpa using congrArg State.refused hv
  unfold handle
  rw [← hr]
  split
  · rfl
  · exact perform_view_of_view_eq hv hs ht e

theorem step_view_of_view_eq (hs : s.Inv) (ht : t.Inv) : viewOutcome (step s) = viewOutcome (step t) := by
  have hp : s.pending = t.pending := by simpa using congrArg State.pending hv
  unfold step
  rw [← hp]
  cases s.pending with
  | nil => rfl
  | cons e rest =>
    exact handle_view_of_view_eq (congrArg (fun u : State => { u with pending := rest }) hv)
      (hs.with_pending rest) (ht.with_pending rest) e

end

/-- Outcomes that look alike are next states that agree through the view, or one refusal; no event faults. -/
theorem viewOutcome_eq_cases {o o' : Host.Outcome State Fault Refusal} (h : viewOutcome o = viewOutcome o') :
    (∃ u v, o = .next u ∧ o' = .next v ∧ u.view = v.view) ∨ (∃ r, o = .refused r ∧ o' = .refused r) := by
  cases o with
  | fault r => exact (no_fault r).elim
  | next u =>
    cases o' with
    | next v => exact .inl ⟨u, v, rfl, rfl, Host.Outcome.next.inj h⟩
    | fault r => exact (no_fault r).elim
    | refused r => cases h
  | refused r =>
    cases o' with
    | next v => cases h
    | fault r' => exact (no_fault r').elim
    | refused r' => exact .inr ⟨r, rfl, congrArg Host.Outcome.refused (Host.Outcome.refused.inj h).symm⟩

theorem run_succ_of_next {M : Host.Core} {k : Nat} {s u : M.State} (h : M.step s = .next u) :
    M.run (k + 1) s = M.run k u := by
  rw [Host.Core.run, h]

theorem run_succ_of_refused {M : Host.Core} {k : Nat} {s : M.State} {r : M.Refusal} (h : M.step s = .refused r) :
    M.run (k + 1) s = .refused r := by
  rw [Host.Core.run, h]

/-- Settles O21, by induction on the number of steps: one step keeps the agreement, and the invariant that the next step
needs of both states. -/
theorem pageTableIsInvisible : Obligations.PageTableIsInvisible := by
  intro n
  induction n with
  | zero => exact fun s t _ _ hv => congrArg Host.Outcome.next hv
  | succ n ih =>
    intro s t hs ht hv
    rcases viewOutcome_eq_cases (step_view_of_view_eq hv hs ht) with ⟨u, v, es, et, huv⟩ | ⟨r, es, et⟩
    · rw [run_succ_of_next (M := Sys2Proof.core) es, run_succ_of_next (M := Sys2Proof.core) et]
      exact ih u v (hs.step es) (ht.step et) huv
    · rw [run_succ_of_refused (M := Sys2Proof.core) es, run_succ_of_refused (M := Sys2Proof.core) et]

end Sys2Proof.Machine
end

section
/-! PROOFS. The history is only ever appended to: every access goes the same way whatever it holds. -/

namespace Sys2Proof.Machine

/-- The same state with another history. -/
def State.withHistory (h : List Record) (s : State) : State := { s with history := h }

theorem State.withHistory_self (s : State) : s.withHistory s.history = s := rfl

theorem State.pg_withHistory (h : List Record) (s : State) (p : Nat) : (s.withHistory h).pg p = s.pg p := rfl

theorem State.lookup_withHistory (h : List Record) (s : State) (g : Nat) : (s.withHistory h).lookup g = s.lookup g := rfl

theorem State.blocked_withHistory (h : List Record) (s : State) : (s.withHistory h).blocked = s.blocked := rfl

theorem State.byteRead_withHistory (h : List Record) (s : State) (p : Nat) :
    (s.withHistory h).byteRead p = ((s.byteRead p).1, (s.byteRead p).2.withHistory h) := by
  unfold State.byteRead
  rw [State.pg_withHistory, State.lookup_withHistory]
  cases s.lookup (s.pg p) with
  | some page => rfl
  | none =>
    simp only [apply_ite (State.withHistory h)]
    rfl

theorem State.touch_withHistory (h : List Record) (s : State) (g : Nat) :
    (s.withHistory h).touch g = (s.touch g).withHistory h := by
  unfold State.touch
  rw [State.lookup_withHistory]
  cases s.lookup g <;> rfl

theorem State.byteWrite_withHistory (h : List Record) (s : State) (p : Nat) (v : Byte) :
    (s.withHistory h).byteWrite p v = (s.byteWrite p v).withHistory h := by
  unfold State.byteWrite
  rw [State.touch_withHistory]
  rfl

theorem State.readBytes_withHistory (h : List Record) (a : Addr) (is : List Nat) (r : Word) (s : State) :
    State.readBytes a is r (s.withHistory h) =
      ((State.readBytes a is r s).1, (State.readBytes a is r s).2.withHistory h) := by
  induction is generalizing r s with
  | nil => rfl
  | cons i is ih =>
    simp only [State.readBytes]
    rw [State.byteRead_withHistory]
    exact ih _ _

theorem State.writeBytes_withHistory (h : List Record) (a : Addr) (w : Width) (v : Word) (is : List Nat) (s : State) :
    State.writeBytes a w v is (s.withHistory h) = (State.writeBytes a w v is s).withHistory h := by
  induction is generalizing s with
  | nil => rfl
  | cons i is ih =>
    simp only [State.writeBytes]
    rw [State.byteWrite_withHistory]
    exact ih _

/-- A read goes the same way whatever the history holds: one next state, one record. -/
theorem State.readTransaction_appends (op : Op) (sp : AddressSpace) (a : Addr) {s : State} (ha : s.Accepting) :
    ∃ (t : State) (d : List Record), ∀ h, (s.withHistory h).readTransaction op sp a = .next (t.withHistory (h ++ d)) := by
  refine ⟨{ s with
    mem := (s.memRead a op.width).2.mem
    pages := (s.memRead a op.width).2.pages
    response := .rdata (s.memRead a op.width).1 }, [⟨op, sp, a, (s.memRead a op.width).1⟩], fun h => ?_⟩
  have hread : (s.withHistory h).memRead a op.width = _ := State.readBytes_withHistory ..
  rw [State.readTransaction_eq op sp a (s := s.withHistory h) ha, hread]
  rfl

/-- A write goes the same way whatever the history holds: one next state, one record. -/
theorem State.writeTransaction_appends (op : Op) (sp : AddressSpace) (a : Addr) (v : Word) {s : State}
    (ha : s.Accepting) :
    ∃ (t : State) (d : List Record), ∀ h, (s.withHistory h).writeTransaction op sp a v = .next (t.withHistory (h ++ d)) := by
  refine ⟨{ s with
    mem := (s.memWrite a op.width v).mem
    pages := (s.memWrite a op.width v).pages
    response := .written }, [⟨op, sp, a, v⟩], fun h => ?_⟩
  have hwrite : (s.withHistory h).memWrite a op.width v = _ := State.writeBytes_withHistory ..
  rw [State.writeTransaction_eq op sp a v (s := s.withHistory h) ha, hwrite]
  rfl

/-- A transaction, accepted or refused, has one next state and appends one list of records, for every history. -/
theorem exec_appends (i : Instr) (s : State) :
    ∃ (t : State) (d : List Record), ∀ h, exec i (s.withHistory h) = .next (t.withHistory (h ++ d)) := by
  rcases exec_cases i s with ⟨_, ha, _⟩ | ⟨why, hb, _, _⟩
  · cases i with
    | readByte sp a | readWord sp a | readLong sp a => exact State.readTransaction_appends _ sp a ha
    | writeByte sp a v | writeWord sp a v | writeLong sp a v => exact State.writeTransaction_appends _ sp a v ha
  · refine ⟨s.refuse why, [], fun h => ?_⟩
    rw [exec_of_blocked ((s.blocked_withHistory h).trans hb), List.append_nil]
    rfl

/-- Settles O34: the given history and the other one are two cases of one equation. -/
theorem historyIsNeverRead : Obligations.HistoryIsNeverRead := by
  intro i s h
  obtain ⟨t, d, e⟩ := exec_appends i s
  exact ⟨t, d, s.withHistory_self ▸ e s.history, e h⟩

end Sys2Proof.Machine
end

section
/-! PROOFS. The storage follows the history: each completed transaction adds its record, and changes the bytes that record says. -/

namespace Sys2Proof.Machine

/-- 20_memory.md R55: the last record acts on what the records before it left. -/
theorem replay_append (size : Nat) (h : List Record) (r : Record) (p : Nat) :
    replay size (h ++ [r]) p = r.after size p (replay size h p) := by
  simp [replay]

/-- Agreement with the history reads the life, the size, the storage and the history, and nothing else. -/
theorem State.Replays.congr {s t : State} (hr : s.Replays) (hl : t.life = s.life) (hs : t.size = s.size)
    (hm : t.mem = s.mem) (hh : t.history = s.history) : t.Replays := by
  rw [State.Replays, hl, hs, hm, hh]
  exact hr

theorem State.Replays.refuse {s : State} (hr : s.Replays) (why : RefuseReason) : (s.refuse why).Replays :=
  hr.congr rfl rfl rfl rfl

theorem State.Replays.construct {s : State} (hr : s.Replays) (n : Nat) : (s.construct n).Replays := by
  rcases s.construct_cases n with ⟨_, e⟩ | ⟨_, e⟩ | ⟨_, _, e⟩
  · exact e ▸ hr.congr rfl rfl rfl rfl
  · exact e ▸ hr.congr rfl rfl rfl rfl
  · exact e ▸ (State.fresh_replays ⟨n, s.pageBits, s.readAllocates⟩).congr rfl rfl rfl rfl

/-- An accepted transaction changes the storage as its own record does; a refused one changes neither. -/
theorem State.Replays.exec {s t : State} (hr : s.Replays) (h : s.Inv) {i : Instr} (he : exec i s = .next t) :
    t.Replays := by
  rcases exec_cases i s with ⟨_, ha, _⟩ | ⟨why, _, _, e⟩
  · obtain ⟨m, ps, d, ans, e, hm, _, _⟩ := exec_accepted i h ha
    obtain rfl := Host.Outcome.next.inj (e.symm.trans he)
    intro _ p
    calc m.read p
      _ = Record.after s.size ⟨i.op, i.space, i.addr, d⟩ p (s.mem.read p) := hm p
      _ = Record.after s.size ⟨i.op, i.space, i.addr, d⟩ p (replay s.size s.history p) := by rw [hr ha.1 p]
      _ = replay s.size (s.history ++ [⟨i.op, i.space, i.addr, d⟩]) p := (replay_append ..).symm
  · obtain rfl := Host.Outcome.next.inj (e.symm.trans he)
    exact hr.refuse why

/-- An event that is taken keeps the storage what the history says, whichever it is. -/
theorem State.Replays.handle {s t : State} (hr : s.Replays) (h : s.Inv) {e : Event} (he : handle e s = .next t) :
    t.Replays := by
  obtain ⟨_, ⟨n, _, rfl⟩ | ⟨r, _, hq⟩ | ⟨r, i, _, _, _, rfl⟩ | ⟨r, why, _, rfl⟩ | ⟨i, _, _, hc⟩ | ⟨_, _, rfl⟩⟩ :=
    handle_next_cases he
  · exact hr.construct n
  · rcases serve_cases r s with ⟨i, _, hi⟩ | ⟨e, _, hi⟩
    · exact hr.exec h (hi.symm.trans hq)
    · exact Host.Outcome.next.inj (hi.symm.trans hq) ▸ hr.refuse _
  · exact hr.congr rfl rfl rfl rfl
  · exact hr.refuse why
  · exact State.Replays.exec (s := { s with inFlight := none }) hr h.with_idle hc
  · exact fun hl => nomatch hl

/-- Settles O49: the event that the step takes keeps the agreement, a transaction by the record it adds. -/
theorem storageFollowsTheHistory : Obligations.StorageFollowsTheHistory := by
  intro s t h hr hs
  rcases step_cases s with ⟨_, hnone⟩ | ⟨e, rest, _, hstep⟩
  · exact nomatch hnone.symm.trans hs
  · exact State.Replays.handle (s := { s with pending := rest }) hr (h.with_pending rest) (hstep.symm.trans hs)

end Sys2Proof.Machine
end

section
/-! PROOFS. Translation of addresses: masks, constituent bytes and when two of them meet, page index and offset. -/

namespace Sys2Proof.Machine

/-- A size that divides the bus absorbs the mask. -/
theorem translate_of_dvd {size : Nat} (h : size ∣ 2 ^ 24) (a : Addr) : translate size a = a.toNat % size := by
  rw [translate_eq_mod, Nat.mod_mod_of_dvd _ h]

/-- Settles O11: the smaller mask is `SIZE - 1`, and both sides are the address modulo `SIZE`. -/
theorem powerOfTwoSizeMasks : Obligations.PowerOfTwoSizeMasks := by
  intro k a hk
  have hmask : 2 ^ k - 1 ≤ 2 ^ 24 - 1 := Nat.sub_le_sub_right (Nat.pow_le_pow_right (by decide) hk) 1
  rw [translate_of_dvd (Nat.pow_dvd_pow 2 hk), addrBusMask_toNat, Nat.min_eq_right hmask,
    Nat.and_two_pow_sub_one_eq_mod]

/-- Settles O10: translation is two reductions; one `SIZE` more on the bus is lost in the second. -/
theorem translationOfAddresses : Obligations.TranslationOfAddresses := by
  intro size a hpos
  refine ⟨translate_eq_mod size a, translate_lt hpos a, translate_of_dvd dvd_rfl a, fun b ha hb hlt => ?_⟩
  rw [translate_eq_mod, translate_eq_mod, Nat.mod_eq_of_lt ha, Nat.mod_eq_of_lt hlt, hb, Nat.add_mod_right]

/-- 20_memory.md R43: the offset is added on the bus, masked again, and reduced onto the size. -/
theorem State.physOf_eq_mod (s : State) (a : Addr) (i : Nat) :
    s.physOf a i = (a.toNat % 2 ^ 24 + i) % 2 ^ 24 % s.size := by
  rw [State.physOf, State.phys, translate_eq_mod, constituent_bus]

/-- Settles O12: the bus wraps modulo 2^24, the request address modulo 2^32. -/
theorem constituentBytesWrap : Obligations.ConstituentBytesWrap :=
  fun s a i => ⟨s.physOf_eq_mod a i, constituent_toNat a i⟩

/-- 20_memory.md R45: bus addresses in one run, or one below and one above the wrap, differ by `j - i`, or by what is
left of the bus. -/
theorem State.physOf_eq_physOf_iff (s : State) (a : Addr) {i j : Nat} (hij : i < j) (hj : j < 4) :
    s.physOf a i = s.physOf a j ↔
      if a.toNat % 2 ^ 24 + i < 2 ^ 24 ∧ 2 ^ 24 ≤ a.toNat % 2 ^ 24 + j then s.size ∣ 2 ^ 24 - (j - i)
      else s.size ∣ j - i := by
  have hb : a.toNat % 2 ^ 24 < 2 ^ 24 := Nat.mod_lt _ (by decide)
  rw [s.physOf_eq_mod, s.physOf_eq_mod]
  generalize a.toNat % 2 ^ 24 = b at hb ⊢
  split
  · next hwrap =>
    have hle : (b + j) % 2 ^ 24 ≤ (b + i) % 2 ^ 24 := by omega
    have hgap : (b + i) % 2 ^ 24 - (b + j) % 2 ^ 24 = 2 ^ 24 - (j - i) := by omega
    rw [eq_comm, ← hgap]
    exact Nat.modEq_iff_dvd' hle
  · next hrun =>
    have hle : (b + i) % 2 ^ 24 ≤ (b + j) % 2 ^ 24 := by omega
    have hgap : (b + j) % 2 ^ 24 - (b + i) % 2 ^ 24 = j - i := by omega
    rw [← hgap]
    exact Nat.modEq_iff_dvd' hle

/-- A size of at least four that divides the bus divides no distance between constituent bytes, wrapped or not. -/
theorem State.physOf_ne_of_dvd {s : State} (hdvd : s.size ∣ 2 ^ 24) (hsize : 4 ≤ s.size) (a : Addr) {i j : Nat}
    (hij : i < j) (hj : j < 4) : s.physOf a i ≠ s.physOf a j := by
  have hgap : ¬ s.size ∣ j - i := Nat.not_dvd_of_pos_of_lt (by omega) (by omega)
  rw [Ne, s.physOf_eq_physOf_iff a hij hj]
  split
  · rwa [Nat.dvd_sub_iff_right (by omega) hdvd]
  · exact hgap

/-- Settles O14: the distances that decide a collision are below four, or miss the bus by less than four. -/
theorem collidingConstituentBytes : Obligations.CollidingConstituentBytes := by
  refine fun s a i j _ hij hj => ⟨s.physOf_eq_physOf_iff a hij hj, fun k hs hk hk' => ?_⟩
  have hfour : 2 ^ 2 ≤ 2 ^ k := Nat.pow_le_pow_right (by decide) hk
  exact State.physOf_ne_of_dvd (hs ▸ Nat.pow_dvd_pow 2 hk') (hs ▸ hfour) a hij hj

/-- Settles O15: a shift and a mask by a power of two are quotient and remainder, and the two parts share no bit. -/
theorem pageIndexAndOffset : Obligations.PageIndexAndOffset := by
  intro s p
  have hg : s.pg p = p / 2 ^ s.pageBits := pageIndex_eq_div s.pageBits p
  have ho : s.off p = p % 2 ^ s.pageBits := pageOffset_eq_mod s.pageBits p
  refine ⟨hg, ho, ?_⟩
  rw [hg, ho, ← Nat.shiftLeft_add_eq_or_of_lt (Nat.mod_lt _ (Nat.two_pow_pos _)), Nat.shiftLeft_eq, Nat.mul_comm,
    Nat.div_add_mod]

end Sys2Proof.Machine
end

section
/-! PROOFS. One byte read and one byte written through the page table. -/

namespace Sys2Proof.Machine

/-- Allocation leaves every other page, allocated or not, as it was. -/
theorem State.lookup_allocate_ne (s : State) {g h : Nat} (hne : h ≠ g) : (s.allocate g).lookup h = s.lookup h := by
  have hkeep : (s.allocate g).mem.filter (fun c => s.pg c.1 == h) = s.mem.filter (fun c => s.pg c.1 == h) := by
    rw [State.allocate_mem, List.filter_filter]
    refine List.filter_congr fun c _ => ?_
    by_cases hc : s.pg c.1 = h
    · simp [hc, hne]
    · simp [hc]
  have hpage : (s.allocate g).page h = s.page h := congrArg (List.map _) hkeep
  simp [State.lookup, hpage, hne]

/-- Settles O16: a case for each branch of `ByteRead`; under the invariant the branches read what the storage holds. -/
theorem byteReadThroughPageTable : Obligations.ByteReadThroughPageTable := by
  intro s p
  have hallocated : ∀ page, s.lookup (s.pg p) = some page → s.byteRead p = (page.read (s.off p), s) :=
    fun page hg => by rw [State.byteRead, hg]
  have hunallocated : s.lookup (s.pg p) = none →
      s.byteRead p = (0#8, if s.readAllocates then s.allocate (s.pg p) else s) :=
    fun hg => by rw [State.byteRead, hg]
  refine ⟨hallocated, fun hg hr => ?_, fun hg hr => ?_, fun h _ => ?_⟩
  · rw [hunallocated hg, if_neg (by simp [hr])]
  · refine ⟨s.allocate (s.pg p), ?_, rfl, s.lookup_allocate_self _, fun g hne => s.lookup_allocate_ne hne⟩
    rw [hunallocated hg, if_pos hr]
  · rw [storageIsThePageTable s p h]
    cases hg : s.lookup (s.pg p) with
    | some page => rw [hallocated page hg]
    | none => rw [hunallocated hg]

/-- Settles O17: the storage after it is the one with the byte stored. -/
theorem byteWriteStoresOneByte : Obligations.ByteWriteStoresOneByte := by
  intro s p v h hl hp
  obtain ⟨ps, e, hps, _⟩ := State.byteWrite_spec h hl hp v
  exact ⟨_, ps, e, fun q => Memory.read_write h.mem_wf p q v, hps⟩

end Sys2Proof.Machine
end

section
/-! PROOFS. The value of a read: the constituent bytes composed, as many bits as the width. -/

namespace Sys2Proof.Machine

/-- 20_memory.md R44: one byte more is shifted in at the low end. -/
theorem composed_range_succ (s : State) (a : Addr) (n : Nat) (r : Word) :
    composed s a (List.range (n + 1)) r =
      composed s a (List.range n) r <<< 8 ||| (s.mem.read (s.physOf a n)).setWidth 32 := by
  simp [composed, List.range_succ]

/-- The slice of a word one byte longer is the slice with the next lower byte shifted in. -/
theorem extract_shiftLeft_or_byte (v : Word) (lo n : Nat) :
    (v.extractLsb' (lo + 8) n).setWidth 32 <<< 8 ||| (v.extractLsb' lo 8).setWidth 32 =
      (v.extractLsb' lo (n + 8)).setWidth 32 := by
  refine BitVec.eq_of_getLsbD_eq fun k hk => ?_
  simp only [BitVec.getLsbD_or, BitVec.getLsbD_shiftLeft, BitVec.getLsbD_setWidth, BitVec.getLsbD_extractLsb', hk,
    decide_true, Bool.true_and]
  by_cases hlow : k < 8
  · simp [hlow, Nat.lt_add_left n hlow]
  · have hshift : lo + 8 + (k - 8) = lo + k := by omega
    have hin : k - 8 < 32 := by omega
    have hwidth : k - 8 < n ↔ k < n + 8 := by omega
    simp [hlow, hshift, hin, hwidth]

/-- 10_state.md R25: where the bytes from `a` on are a big-endian slice of a word, the value read there is that slice. -/
theorem composed_of_slice {s : State} {a : Addr} {v : Word} {n lo : Nat}
    (h : ∀ i < n, s.mem.read (s.physOf a i) = v.extractLsb' (lo + 8 * (n - 1 - i)) 8) :
    composed s a (List.range n) 0#32 = (v.extractLsb' lo (8 * n)).setWidth 32 := by
  induction n generalizing lo with
  | zero => simp [composed]
  | succ n ih =>
    have hupper : composed s a (List.range n) 0#32 = (v.extractLsb' (lo + 8) (8 * n)).setWidth 32 :=
      ih fun i hi => (h i (by omega)).trans (congrArg (v.extractLsb' · 8) (by omega))
    have hlast : s.mem.read (s.physOf a n) = v.extractLsb' lo 8 :=
      (h n (by omega)).trans (congrArg (v.extractLsb' · 8) (by omega))
    rw [composed_range_succ, hupper, hlast, extract_shiftLeft_or_byte, Nat.mul_add_one]

/-- 30_encoding.md R68: `n` bytes compose to a value of `8 * n` bits. -/
theorem composed_lt (s : State) (a : Addr) (n : Nat) : (composed s a (List.range n) 0#32).toNat < 2 ^ (8 * n) := by
  induction n with
  | zero => simp [composed]
  | succ n ih =>
    rw [composed_range_succ, BitVec.toNat_or]
    refine Nat.or_lt_two_pow ?_ ?_
    · have hpow : 2 ^ (8 * (n + 1)) = 2 ^ (8 * n) * 2 ^ 8 := by rw [Nat.mul_add_one, Nat.pow_add]
      rw [BitVec.toNat_shiftLeft, Nat.shiftLeft_eq, hpow]
      exact (Nat.mod_le _ _).trans_lt (Nat.mul_lt_mul_of_pos_right ih (by decide))
    · have hbyte := (s.mem.read (s.physOf a n)).isLt
      have hle : 2 ^ 8 ≤ 2 ^ (8 * (n + 1)) := Nat.pow_le_pow_right (by decide) (by omega)
      rw [BitVec.toNat_setWidth]
      exact (Nat.mod_le _ _).trans_lt (hbyte.trans_le hle)

/-- Cutting a value read to its width and extending it again gives it back. -/
theorem composed_setWidth (s : State) (a : Addr) (n : Nat) :
    ((composed s a (List.range n) 0#32).setWidth (8 * n)).setWidth 32 = composed s a (List.range n) 0#32 := by
  refine BitVec.eq_of_toNat_eq ?_
  rw [BitVec.toNat_setWidth, BitVec.toNat_setWidth, Nat.mod_eq_of_lt (composed_lt s a n),
    Nat.mod_eq_of_lt (BitVec.isLt _)]

/-- The answer of an accepted read fits its width. -/
theorem State.performRead_setWidth {s : State} (h : s.Inv) (hl : s.life = .live) (op : Op) (sp : AddressSpace)
    (a : Addr) :
    ((s.performRead op sp a).1.setWidth (8 * op.width.bytes)).setWidth 32 = (s.performRead op sp a).1 := by
  obtain ⟨_, e, _⟩ := State.performRead_spec op sp a h hl
  rw [e]
  exact composed_setWidth s a op.width.bytes

theorem State.readTransaction_of_accepting (op : Op) (sp : AddressSpace) (a : Addr) {s : State} (ha : s.Accepting) :
    s.readTransaction op sp a =
      .next { (s.performRead op sp a).2 with response := .rdata (s.performRead op sp a).1 } := by
  rw [State.readTransaction, State.blocked_eq_none.2 ha]

theorem State.writeTransaction_of_accepting (op : Op) (sp : AddressSpace) (a : Addr) (v : Word) {s : State}
    (ha : s.Accepting) :
    s.writeTransaction op sp a v = .next { s.performWrite op sp a v with response := .written } := by
  rw [State.writeTransaction, State.blocked_eq_none.2 ha]

/-- Settles O35: the contract performs the same reads and writes; its narrow answers lose nothing, since a value read fits
its width. -/
theorem machineImplementsTheBus : Obligations.MachineImplementsTheBus := by
  intro i s h ha
  cases i with
  | readByte sp a | readWord sp a =>
    refine (State.readTransaction_of_accepting _ sp a ha).trans ?_
    rw [← State.performRead_setWidth h ha.1]
    rfl
  | readLong sp a => exact State.readTransaction_of_accepting _ sp a ha
  | writeByte sp a v | writeWord sp a v | writeLong sp a v => exact State.writeTransaction_of_accepting _ sp a v ha

end Sys2Proof.Machine
end

section
/-! PROOFS. Reads of what a write has just stored, and transactions repeated. -/

namespace Sys2Proof.Machine

/-- 20_memory.md R45: the first `n` constituent bytes from `a` on name different bytes of storage. -/
def State.BytesApart (s : State) (a : Addr) (n : Nat) : Prop :=
  ∀ i j, i < j → j < n → s.physOf a i ≠ s.physOf a j

theorem State.bytesApart_one (s : State) (a : Addr) : s.BytesApart a 1 :=
  fun _ _ hij hj => absurd hj (by omega)

theorem State.bytesApart_two {s : State} {a : Addr} (h : s.physOf a 0 ≠ s.physOf a 1) : s.BytesApart a 2 := by
  intro i j hij hj
  obtain rfl : i = 0 := by omega
  obtain rfl : j = 1 := by omega
  exact h

theorem State.BytesApart.eq_of_physOf_eq {s : State} {a : Addr} {n i j : Nat} (h : s.BytesApart a n) (hi : i < n)
    (hj : j < n) (he : s.physOf a i = s.physOf a j) : i = j := by
  rcases Nat.lt_trichotomy i j with hlt | heq | hgt
  · exact absurd he (h i j hlt hj)
  · exact heq
  · exact absurd he.symm (h j i hgt hi)

/-- Where no other constituent byte listed names the byte that `i` names, it holds byte `i` once that is stored. -/
theorem overwritten_of_unique {s : State} {a : Addr} {w : Width} {v : Word} {is : List Nat} {i : Nat} {b : Byte}
    (huniq : ∀ j ∈ is, s.physOf a j = s.physOf a i → j = i) (hstored : i ∈ is ∨ b = byteOf w v i) :
    overwritten s a w v is (s.physOf a i) b = byteOf w v i := by
  induction is generalizing b with
  | nil => exact hstored.resolve_left (by simp)
  | cons j is ih =>
    refine ih (fun k hk => huniq k (List.mem_cons_of_mem _ hk)) ?_
    by_cases hj : s.physOf a j = s.physOf a i
    · obtain rfl := huniq j (List.mem_cons_self ..) hj
      exact .inr (if_pos rfl)
    · have hne : i ≠ j := fun e => hj (e ▸ rfl)
      simp only [if_neg hj]
      exact hstored.imp_left fun hi => (List.mem_cons.1 hi).resolve_left hne

theorem constituent_zero (a : Addr) : constituent a 0 = a := by simp [constituent]

theorem constituent_constituent (a : Addr) (i j : Nat) : constituent (constituent a i) j = constituent a (i + j) := by
  simp [constituent, BitVec.ofNat_add, BitVec.add_assoc]

/-- The record and the answer that complete an accepted transaction keep the invariant. -/
theorem State.Inv.completed {s : State} {m : Memory} {ps : List Nat}
    (hi : State.Inv { s with mem := m, pages := ps }) (ha : s.Accepting) (h : List Record) (ans : Response) :
    State.Inv { s with mem := m, pages := ps, history := h, response := ans } :=
  hi.congr rfl rfl rfl rfl rfl (fun hu => nomatch ha.1.symm.trans hu) (fun hn => absurd ha.1 hn)

/-- 20_memory.md R48, R55: a read inside the bytes a write has just stored, each in a place of its own, answers with the
big-endian part of the value that stands there. -/
theorem State.read_within_write {s : State} (h : s.Inv) (ha : s.Accepting) (op : Op) (sp : AddressSpace) (a : Addr)
    (v : Word) (hapart : s.BytesApart a op.width.bytes) :
    ∃ t, s.writeTransaction op sp a v = .next t ∧
      ∀ (op' : Op) (sp' : AddressSpace) (k : Nat), k + op'.width.bytes ≤ op.width.bytes →
        ∃ u, t.readTransaction op' sp' (constituent a k) = .next u ∧
          u.response = .rdata ((v.extractLsb' (8 * (op.width.bytes - k - op'.width.bytes))
            (8 * op'.width.bytes)).setWidth 32) := by
  obtain ⟨m, ps, e, hm, _, hinv⟩ := State.writeTransaction_accepted op sp a v h ha
  refine ⟨_, e, fun op' sp' k hk => ?_⟩
  obtain ⟨_, e', _⟩ := State.readTransaction_accepted op' sp' (constituent a k) (hinv.completed ha _ _) ha
  refine ⟨_, e', congrArg Response.rdata (composed_of_slice fun i hi => ?_)⟩
  have hphys : s.physOf (constituent a k) i = s.physOf a (k + i) := congrArg s.phys (constituent_constituent a k i)
  have hin : k + i < op.width.bytes := by omega
  have hstored : m.read (s.physOf a (k + i)) = byteOf op.width v (k + i) := by
    refine (hm _).trans (overwritten_of_unique (fun j hj => ?_) (.inl (List.mem_range.2 hin)))
    exact hapart.eq_of_physOf_eq (List.mem_range.1 hj) hin
  calc m.read (s.physOf (constituent a k) i)
    _ = byteOf op.width v (k + i) := by rw [hphys, hstored]
    _ = v.extractLsb' (8 * (op.width.bytes - k - op'.width.bytes) + 8 * (op'.width.bytes - 1 - i)) 8 :=
      congrArg (v.extractLsb' · 8) (by omega)

/-- Settles O28: the read covers all the bytes of the write. -/
theorem writeThenReadReturnsValue : Obligations.WriteThenReadReturnsValue := by
  intro s sp sp' a v h ha
  refine ⟨?_, fun hne => ?_, fun hapart => ?_⟩
  · obtain ⟨t, e, hread⟩ := State.read_within_write h ha .writeByte sp a v (s.bytesApart_one a)
    obtain ⟨u, e', hu⟩ := hread .readByte sp' 0 le_rfl
    exact ⟨t, u, e, constituent_zero a ▸ e', hu⟩
  · obtain ⟨t, e, hread⟩ := State.read_within_write h ha .writeWord sp a v (State.bytesApart_two hne)
    obtain ⟨u, e', hu⟩ := hread .readWord sp' 0 le_rfl
    exact ⟨t, u, e, constituent_zero a ▸ e', hu⟩
  · obtain ⟨t, e, hread⟩ := State.read_within_write h ha .writeLong sp a v hapart
    obtain ⟨u, e', hu⟩ := hread .readLong sp' 0 le_rfl
    refine ⟨t, u, e, constituent_zero a ▸ e', hu.trans (congrArg Response.rdata ?_)⟩
    exact (BitVec.setWidth_eq _).trans BitVec.extractLsb'_eq_self

/-- Settles O29: each narrower read covers a part of the bytes of the write. -/
theorem narrowReadsOfWideWrite : Obligations.NarrowReadsOfWideWrite := by
  intro s sp sp' a v h ha
  refine ⟨fun hapart => ?_, fun hne => ?_⟩
  · obtain ⟨t, e, hread⟩ := State.read_within_write h ha .writeLong sp a v hapart
    refine ⟨t, e, fun i hi => ?_, ?_, hread .readWord sp' 2 le_rfl⟩
    · have hlo : 4 - i - 1 = 3 - i := by omega
      exact hlo ▸ hread .readByte sp' i hi
    · exact constituent_zero a ▸ hread .readWord sp' 0 (by decide)
  · obtain ⟨t, e, hread⟩ := State.read_within_write h ha .writeWord sp a v (State.bytesApart_two hne)
    refine ⟨t, e, fun i hi => ?_⟩
    have hlo : 2 - i - 1 = 1 - i := by omega
    exact hlo ▸ hread .readByte sp' i hi

/-- Storing the same bytes again changes nothing: the last of them that names a byte decides it both times, or none does. -/
theorem overwritten_overwritten (s : State) (a : Addr) (w : Width) (v : Word) (is : List Nat) (p : Nat) (b : Byte) :
    overwritten s a w v is p (overwritten s a w v is p b) = overwritten s a w v is p b := by
  have hdecided : (∀ c, overwritten s a w v is p c = c) ∨ ∃ d, ∀ c, overwritten s a w v is p c = d := by
    induction is with
    | nil => exact .inl fun _ => rfl
    | cons i is ih =>
      by_cases hi : s.physOf a i = p
      · exact .inr ⟨overwritten s a w v is p (byteOf w v i), fun c => by simp [overwritten, hi]⟩
      · simpa [overwritten, hi] using ih
  rcases hdecided with hkept | ⟨d, hd⟩
  · exact hkept _
  · rw [hd, hd]

/-- 20_memory.md R52: a read leaves the storage, which alone decides its answer. -/
theorem State.readTransaction_repeats {s : State} (h : s.Inv) (ha : s.Accepting) (op : Op) (sp : AddressSpace)
    (a : Addr) :
    ∃ t u, s.readTransaction op sp a = .next t ∧ t.readTransaction op sp a = .next u ∧ u.mem = t.mem ∧
      u.response = t.response ∧ t.mem = s.mem := by
  obtain ⟨_, e, _, _, hinv⟩ := State.readTransaction_accepted op sp a h ha
  obtain ⟨_, e', _⟩ := State.readTransaction_accepted op sp a (State.Inv.completed (m := s.mem) hinv ha _ _) ha
  exact ⟨_, _, e, e', rfl, rfl, rfl⟩

/-- 20_memory.md R52: the storages after one write and after two read alike, so they are one list by the canonical form. -/
theorem State.writeTransaction_repeats {s : State} (h : s.Inv) (ha : s.Accepting) (op : Op) (sp : AddressSpace)
    (a : Addr) (v : Word) :
    ∃ t u, s.writeTransaction op sp a v = .next t ∧ t.writeTransaction op sp a v = .next u ∧ u.mem = t.mem ∧
      u.response = t.response := by
  obtain ⟨m, _, e, hm, _, hinv⟩ := State.writeTransaction_accepted op sp a v h ha
  obtain ⟨m', _, e', hm', _, hinv'⟩ := State.writeTransaction_accepted op sp a v (hinv.completed ha _ _) ha
  have hsame : m' = m := Memory.ext_of_read hinv'.mem_wf hinv.mem_wf fun p =>
    calc m'.read p
      _ = overwritten s a op.width v (List.range op.width.bytes) p (m.read p) := hm' p
      _ = m.read p := by rw [hm p, overwritten_overwritten]
  exact ⟨_, _, e, e', hsame, rfl⟩

/-- Settles O30: a read composes the bytes it left, and a write stores the bytes that stand there. -/
theorem repeatedTransactionIsIdempotent : Obligations.RepeatedTransactionIsIdempotent := by
  intro i s h ha
  cases i with
  | readByte sp a | readWord sp a | readLong sp a =>
    obtain ⟨t, u, e, e', hm, hr, hs⟩ := State.readTransaction_repeats h ha _ sp a
    exact ⟨t, u, e, e', hm, hr, fun _ => hs⟩
  | writeByte sp a v | writeWord sp a v | writeLong sp a v =>
    obtain ⟨t, u, e, e', hm, hr⟩ := State.writeTransaction_repeats h ha _ sp a v
    exact ⟨t, u, e, e', hm, hr, fun hw => nomatch hw⟩

end Sys2Proof.Machine
end

section
/-! PROOFS. What a transaction does not read of its request: the AddressSpace, and the upper lines of the address. -/

namespace Sys2Proof

@[simp] theorem Instr.withSpace_self (i : Instr) : i.withSpace i.space = i := by cases i <;> rfl

@[simp] theorem Instr.withAddr_self (i : Instr) : i.withAddr i.addr = i := by cases i <;> rfl

@[simp] theorem Instr.addr_withSpace (sp : AddressSpace) (i : Instr) : (i.withSpace sp).addr = i.addr := by
  cases i <;> rfl

namespace Machine

/-- Addresses with one bus address have the same constituent bytes (20_memory.md R36, R43). -/
theorem State.physOf_of_bus_eq (s : State) {a b : Addr} (hab : b &&& addrBusMask = a &&& addrBusMask) (i : Nat) :
    s.physOf b i = s.physOf a i := by
  rw [s.physOf_eq_mod, s.physOf_eq_mod, ← bus_toNat, ← bus_toNat, hab]

theorem State.readBytes_of_bus_eq {a b : Addr} (hab : b &&& addrBusMask = a &&& addrBusMask) (is : List Nat) (r : Word)
    (s : State) : State.readBytes b is r s = State.readBytes a is r s := by
  induction is generalizing r s with
  | nil => rfl
  | cons i is ih => rw [State.readBytes, State.readBytes, s.physOf_of_bus_eq hab, ih]

theorem State.writeBytes_of_bus_eq {a b : Addr} (hab : b &&& addrBusMask = a &&& addrBusMask) (w : Width) (v : Word)
    (is : List Nat) (s : State) : State.writeBytes b w v is s = State.writeBytes a w v is s := by
  induction is generalizing s with
  | nil => rfl
  | cons i is ih => rw [State.writeBytes, State.writeBytes, s.physOf_of_bus_eq hab, ih]

/-- An accepted read leaves one state and records one value, whatever its AddressSpace and the upper lines. -/
theorem State.readTransaction_of_bus_eq (op : Op) (a : Addr) {s : State} (ha : s.Accepting) :
    ∃ (t : State) (d : Word), ∀ (sp : AddressSpace) (b : Addr), b &&& addrBusMask = a &&& addrBusMask →
      s.readTransaction op sp b = .next { t with history := s.history ++ [⟨op, sp, b, d⟩] } := by
  refine ⟨{ s with
    mem := (s.memRead a op.width).2.mem
    pages := (s.memRead a op.width).2.pages
    response := .rdata (s.memRead a op.width).1 }, (s.memRead a op.width).1, fun sp b hab => ?_⟩
  have hread : s.memRead b op.width = s.memRead a op.width := State.readBytes_of_bus_eq hab ..
  rw [State.readTransaction_eq op sp b ha, hread]

/-- An accepted write leaves one state, whatever its AddressSpace and the upper lines, but for its record. -/
theorem State.writeTransaction_of_bus_eq (op : Op) (a : Addr) (v : Word) {s : State} (ha : s.Accepting) :
    ∃ (t : State) (d : Word), ∀ (sp : AddressSpace) (b : Addr), b &&& addrBusMask = a &&& addrBusMask →
      s.writeTransaction op sp b v = .next { t with history := s.history ++ [⟨op, sp, b, d⟩] } := by
  refine ⟨{ s with
    mem := (s.memWrite a op.width v).mem
    pages := (s.memWrite a op.width v).pages
    response := .written }, v, fun sp b hab => ?_⟩
  have hwrite : s.memWrite b op.width v = s.memWrite a op.width v := State.writeBytes_of_bus_eq hab ..
  rw [State.writeTransaction_eq op sp b v ha, hwrite]

/-- Of its AddressSpace and its address's upper lines an accepted transaction keeps a record, and nothing else. -/
theorem exec_of_bus_eq (i : Instr) {s : State} (ha : s.Accepting) :
    ∃ (t : State) (d : Word), ∀ (sp : AddressSpace) (b : Addr), b &&& addrBusMask = i.addr &&& addrBusMask →
      exec ((i.withSpace sp).withAddr b) s = .next { t with history := s.history ++ [⟨i.op, sp, b, d⟩] } := by
  cases i with
  | readByte sp a | readWord sp a | readLong sp a => exact State.readTransaction_of_bus_eq _ a ha
  | writeByte sp a v | writeWord sp a v | writeLong sp a v => exact State.writeTransaction_of_bus_eq _ a v ha

/-- Settles O13: the masked address has the bus address of the one supplied. -/
theorem maskedAddressAliases : Obligations.MaskedAddressAliases := by
  intro i s ha
  obtain ⟨t, d, e⟩ := exec_of_bus_eq i ha
  have hmasked : i.addr &&& addrBusMask &&& addrBusMask = i.addr &&& addrBusMask := by
    rw [BitVec.and_assoc, BitVec.and_self]
  exact ⟨t, d, by simpa using e i.space i.addr rfl, by simpa using e i.space _ hmasked⟩

/-- Settles O31: the address is the same, and so its bus address is. -/
theorem addressSpaceGatesNothing : Obligations.AddressSpaceGatesNothing := by
  intro i sp s ha
  obtain ⟨t, d, e⟩ := exec_of_bus_eq i ha
  have hsame : (i.withSpace sp).withAddr i.addr = i.withSpace sp := by
    simpa using (i.withSpace sp).withAddr_self
  exact ⟨t, d, by simpa using e i.space i.addr rfl, hsame ▸ e sp i.addr rfl⟩

end Machine

end Sys2Proof
end

section
/-! PROOFS. A transaction whose caller does not wait: refused while another is in flight, and else as one waited for. -/

namespace Sys2Proof

/-- 30_encoding.md R62: a used function code is that of an AddressSpace. -/
theorem Request.exists_fc_of_fcOk {r : Request} (h : r.fcOk = true) :
    ∃ sp : AddressSpace, r.cmd.extractLsb' 3 3 = sp.fc := by
  have hmem : r.cmd.extractLsb' 3 3 ∈ [1#3, 2#3, 5#3, 6#3] := List.contains_iff_mem.1 h
  simp only [List.mem_cons, List.not_mem_nil, or_false] at hmem
  rcases hmem with hc | hc | hc | hc
  · exact ⟨.userData, hc⟩
  · exact ⟨.userProgram, hc⟩
  · exact ⟨.supervisorData, hc⟩
  · exact ⟨.supervisorProgram, hc⟩

/-- 30_encoding.md R64: a size field that is not reserved is that of a width. -/
theorem Width.exists_sz_of_ne {z : BitVec 2} (h : z ≠ 3#2) : ∃ w : Width, z = w.sz := by
  have hcases : ∀ z : BitVec 2, z = 0#2 ∨ z = 1#2 ∨ z = 2#2 ∨ z = 3#2 := by decide
  rcases hcases z with hz | hz | hz | hz
  · exact ⟨.byte, hz⟩
  · exact ⟨.word, hz⟩
  · exact ⟨.long, hz⟩
  · exact absurd hz h

/-- 30_encoding.md R69, R70: a well-formed request spells an instruction. -/
theorem exists_decode_of_wellFormed {r : Request} (h : r.wellFormed = true) : ∃ i, decode r = .ok i := by
  simp only [Request.wellFormed, Bool.and_eq_true] at h
  obtain ⟨⟨hres, hfc⟩, hsz⟩ := h
  obtain ⟨sp, hsp⟩ := Request.exists_fc_of_fcOk hfc
  obtain ⟨w, hw⟩ := Width.exists_sz_of_ne (bne_iff_ne.1 hsz)
  exact ⟨_, decode_eq_ok.2 ⟨sp, w, beq_iff_eq.1 hres, hsp, hw, rfl⟩⟩

namespace Machine

/-- An unmarked block performs the next event of its caller. -/
theorem step_of_pending {s : State} {e : Event} {rest : List Event} (hp : s.pending = e :: rest)
    (hr : s.refused = false) : step s = perform e { s with pending := rest } := by
  simp [step, handle, hp, hr]

theorem decoded_of_decode {r : Request} {i : Instr} (hd : decode r = .ok i) (s : State)
    (run : Instr → State → Host.Outcome State Fault Refusal) : decoded r s run = run i s := by
  rw [decoded, hd]

theorem State.blocked_of_busy {s : State} (hl : s.life = .live) (hf : s.inFlight ≠ none) :
    s.blocked = some .overlapping := by
  simp [State.blocked, hl, Option.isSome_iff_ne_none.2 hf]

theorem takeUp_of_blocked {s : State} {why : RefuseReason} (hb : s.blocked = some why) (i : Instr) :
    takeUp i s = .next (s.refuse why) := by
  rw [takeUp, hb]

theorem takeUp_of_accepting {s : State} (ha : s.Accepting) (i : Instr) :
    takeUp i s = .next { s with inFlight := some i, response := .nothing } := by
  rw [takeUp, State.blocked_eq_none.2 ha]

/-- Settles O41: the legal request spells an instruction, and that is judged alike when it is run and when it is taken up. -/
theorem overlappingTransactionIsRefused : Obligations.OverlappingTransactionIsRefused := by
  intro s r rest hl hf hr hwf hp
  obtain ⟨i, hd⟩ := exists_decode_of_wellFormed hwf
  have hb : State.blocked { s with pending := rest } = some .overlapping := State.blocked_of_busy hl hf
  rcases hp with hp | hp
  · rw [step_of_pending hp hr]
    exact (decoded_of_decode hd _ exec).trans (exec_of_blocked hb i)
  · rw [step_of_pending hp hr]
    exact (decoded_of_decode hd _ takeUp).trans (takeUp_of_blocked hb i)

/-- What an access reads of the state: the configuration, the storage and the allocated pages; the rest as after
construction. -/
def State.storage (s : State) : State :=
  { State.fresh ⟨s.size, s.pageBits, s.readAllocates⟩ with mem := s.mem, pages := s.pages }

theorem State.lookup_storage (s : State) (g : Nat) : s.storage.lookup g = s.lookup g := rfl

theorem State.pg_storage (s : State) (p : Nat) : s.storage.pg p = s.pg p := rfl

theorem State.byteRead_storage (s : State) (p : Nat) :
    s.storage.byteRead p = ((s.byteRead p).1, (s.byteRead p).2.storage) := by
  unfold State.byteRead
  rw [State.pg_storage, State.lookup_storage]
  cases s.lookup (s.pg p) with
  | some page => rfl
  | none =>
    simp only [apply_ite State.storage]
    rfl

theorem State.byteWrite_storage (s : State) (p : Nat) (v : Byte) :
    s.storage.byteWrite p v = (s.byteWrite p v).storage := by
  unfold State.byteWrite State.touch
  rw [State.pg_storage, State.lookup_storage]
  cases s.lookup (s.pg p) <;> rfl

theorem State.readBytes_storage (a : Addr) (is : List Nat) (r : Word) (s : State) :
    State.readBytes a is r s.storage = ((State.readBytes a is r s).1, (State.readBytes a is r s).2.storage) := by
  induction is generalizing r s with
  | nil => rfl
  | cons i is ih =>
    simp only [State.readBytes]
    rw [State.byteRead_storage]
    exact ih _ _

theorem State.writeBytes_storage (a : Addr) (w : Width) (v : Word) (is : List Nat) (s : State) :
    State.writeBytes a w v is s.storage = (State.writeBytes a w v is s).storage := by
  induction is generalizing s with
  | nil => rfl
  | cons i is ih =>
    simp only [State.writeBytes]
    rw [State.byteWrite_storage]
    exact ih _

/-- An accepted read, by the access of what it reads of the state. -/
theorem State.readTransaction_eq_storage (op : Op) (sp : AddressSpace) (a : Addr) {s : State} (ha : s.Accepting) :
    s.readTransaction op sp a = .next { s with
      mem := (s.storage.memRead a op.width).2.mem
      pages := (s.storage.memRead a op.width).2.pages
      history := s.history ++ [⟨op, sp, a, (s.storage.memRead a op.width).1⟩]
      response := .rdata (s.storage.memRead a op.width).1 } := by
  have hread : s.storage.memRead a op.width = _ := State.readBytes_storage ..
  rw [State.readTransaction_eq op sp a ha, hread]
  rfl

/-- An accepted write, by the access of what it reads of the state. -/
theorem State.writeTransaction_eq_storage (op : Op) (sp : AddressSpace) (a : Addr) (v : Word) {s : State}
    (ha : s.Accepting) :
    s.writeTransaction op sp a v = .next { s with
      mem := (s.storage.memWrite a op.width v).mem
      pages := (s.storage.memWrite a op.width v).pages
      history := s.history ++ [⟨op, sp, a, v⟩]
      response := .written } := by
  have hwrite : s.storage.memWrite a op.width v = _ := State.writeBytes_storage ..
  rw [State.writeTransaction_eq op sp a v ha, hwrite]
  rfl

/-- The last answer is not read, and is replaced: an accepted transaction leaves the same state after any other. -/
theorem exec_with_response (i : Instr) {s : State} (ha : s.Accepting) (ans : Response) :
    exec i { s with response := ans } = exec i s := by
  have ha' : State.Accepting { s with response := ans } := ha
  cases i with
  | readByte sp a | readWord sp a | readLong sp a =>
    exact (State.readTransaction_eq_storage _ sp a ha').trans (State.readTransaction_eq_storage _ sp a ha).symm
  | writeByte sp a v | writeWord sp a v | writeLong sp a v =>
    exact (State.writeTransaction_eq_storage _ sp a v ha').trans (State.writeTransaction_eq_storage _ sp a v ha).symm

/-- 20_memory.md R51: completion runs the instruction taken up; of being in flight only an answer is left, which the
transaction replaces. -/
theorem complete_of_taken_up {s : State} (ha : s.Accepting) (i : Instr) :
    complete { s with inFlight := some i, response := .nothing } = exec i s := by
  have hidle : ({ s with inFlight := none, response := .nothing } : State) = { s with response := .nothing } := by
    rw [← ha.2]
  exact (congrArg (exec i) hidle).trans (exec_with_response i ha .nothing)

/-- Settles O38: the first step takes the instruction up, the second completes it. -/
theorem issuedTransactionCompletesAsWaitedOne : Obligations.IssuedTransactionCompletesAsWaitedOne := by
  intro s r rest ha hr hwf hp
  obtain ⟨i, hd⟩ := exists_decode_of_wellFormed hwf
  have hrest : State.Accepting { s with pending := rest } := ha
  have hissue : step s = .next
      { s with pending := .complete :: rest, inFlight := some i, response := .nothing } := by
    rw [step_of_pending hp hr]
    exact (decoded_of_decode hd _ takeUp).trans
      (takeUp_of_accepting (s := { s with pending := .complete :: rest }) ha i)
  have hcomplete : step { s with pending := .complete :: rest, inFlight := some i, response := .nothing } =
      exec i { s with pending := rest } := by
    refine (step_of_pending (e := .complete) (rest := rest) ?_ ?_).trans ?_
    · rfl
    · exact hr
    · exact complete_of_taken_up hrest i
  obtain ⟨t, ht⟩ : ∃ t, exec i { s with pending := rest } = .next t := by
    rcases exec_cases i { s with pending := rest } with ⟨t, _, e⟩ | ⟨why, _, hn, _⟩
    · exact ⟨t, e⟩
    · exact absurd hrest hn
  refine ⟨i, t, hd, ht, run_succ_eq_next_iff.2 ⟨_, hissue, ?_⟩⟩
  exact run_succ_eq_next_iff.2 ⟨t, hcomplete.trans ht, rfl⟩

end Machine

end Sys2Proof
end

section
/-! PROOFS. The decoder and the encoder: the fields of a command word, the first failing check, what decodes to what. -/

namespace Sys2Proof

/-! The operands of the instruction its fields spell (30_encoding.md R63, R68). -/

@[simp] theorem Instr.space_ofFields (rw : Bool) (w : Width) (sp : AddressSpace) (a : Addr) (v : Word) :
    (Instr.ofFields rw w sp a v).space = sp := by
  cases rw <;> cases w <;> rfl

@[simp] theorem Instr.addr_ofFields (rw : Bool) (w : Width) (sp : AddressSpace) (a : Addr) (v : Word) :
    (Instr.ofFields rw w sp a v).addr = a := by
  cases rw <;> cases w <;> rfl

@[simp] theorem Instr.isWrite_ofFields (rw : Bool) (w : Width) (sp : AddressSpace) (a : Addr) (v : Word) :
    (Instr.ofFields rw w sp a v).op.isWrite = !rw := by
  cases rw <;> cases w <;> rfl

@[simp] theorem Instr.width_ofFields (rw : Bool) (w : Width) (sp : AddressSpace) (a : Addr) (v : Word) :
    (Instr.ofFields rw w sp a v).op.width = w := by
  cases rw <;> cases w <;> rfl

@[simp] theorem Instr.wdata?_ofFields (rw : Bool) (w : Width) (sp : AddressSpace) (a : Addr) (v : Word) :
    (Instr.ofFields rw w sp a v).wdata? = if rw then none else some v := by
  cases rw <;> cases w <;> rfl

/-- An instruction is spelled by its own operands. -/
theorem Instr.eq_ofFields (i : Instr) :
    i = Instr.ofFields (!i.op.isWrite) i.op.width i.space i.addr (i.wdata?.getD 0#32) := by
  cases i <;> rfl

/-- 20_memory.md R50, 30_encoding.md R64: the size field is the binary logarithm of the width. -/
theorem Width.bytes_eq_two_pow_sz (w : Width) : w.bytes = 2 ^ w.sz.toNat := by cases w <;> rfl

/-- 30_encoding.md R60, R61: the request that spells an instruction, by its operands. -/
theorem encode_eq (i : Instr) : encode i =
    ⟨commandWord i.space (BitVec.ofBool !i.op.isWrite) i.op.width, i.addr, i.wdata?.getD 0#32⟩ := by
  cases i <;> rfl

/-- 30_encoding.md R61: of a command word of the layout the mask `0xC7` clears the function code alone. -/
theorem commandWord_masked (sp : AddressSpace) (rw : BitVec 1) (w : Width) :
    commandWord sp rw w &&& 0xC7#8 = 0#2 ++ 0#3 ++ rw ++ w.sz := by
  rcases sp.eq_one_of_four with rfl | rfl | rfl | rfl <;> cases w <;> revert rw <;> decide

/-- Settles O4: the masked command word is the direction and size of the operation. -/
theorem commandWordMatchesItsRow : Obligations.CommandWordMatchesItsRow := by
  intro i
  rw [encode_eq]
  refine ⟨?_, commandWord_fc .., rfl, fun v hv => by simp [hv]⟩
  rw [commandWord_masked]
  cases i.op <;> rfl

/-- 30_encoding.md R61: a command word is its four fields in a row. -/
theorem cmd_eq_append_fields (c : Cmd) : c =
    c.extractLsb' 6 2 ++ c.extractLsb' 3 3 ++ BitVec.ofBool (c.getLsbD 2) ++ c.extractLsb' 0 2 := by
  have hrw : BitVec.ofBool (c.getLsbD 2) = c.extractLsb' 2 1 := by
    ext i hi
    obtain rfl : i = 0 := by omega
    simp
  rw [hrw, BitVec.extractLsb'_append_extractLsb'_eq_extractLsb' (show 6 = 3 + 3 from rfl),
    BitVec.extractLsb'_append_extractLsb'_eq_extractLsb' (show 3 = 2 + 1 from rfl),
    BitVec.extractLsb'_append_extractLsb'_eq_extractLsb' (show 2 = 0 + 2 from rfl)]
  exact BitVec.extractLsb'_eq_self.symm

/-- 30_encoding.md R61: a command word whose fields stand for an AddressSpace and a width is of the layout. -/
theorem eq_commandWord_of_fields {c : Cmd} {sp : AddressSpace} {w : Width} (hres : c.extractLsb' 6 2 = 0#2)
    (hfc : c.extractLsb' 3 3 = sp.fc) (hsz : c.extractLsb' 0 2 = w.sz) :
    c = commandWord sp (BitVec.ofBool (c.getLsbD 2)) w := by
  rw [commandWord, ← hres, ← hfc, ← hsz]
  exact cmd_eq_append_fields c

/-- A command word of the layout spells the operation of its fields. -/
theorem decode_commandWord (sp : AddressSpace) (rw : BitVec 1) (w : Width) (a : Addr) (v : Word) :
    decode ⟨commandWord sp rw w, a, v⟩ = .ok (Instr.ofFields rw[0] w sp a v) :=
  decode_eq_ok.2 ⟨sp, w, commandWord_res .., commandWord_fc .., commandWord_sz .., by simp⟩

/-- A request that spells an instruction has a command word of the layout, and the instruction has its fields. -/
theorem layout_of_decode {r : Request} {i : Instr} (h : decode r = .ok i) :
    ∃ sp rw w, r.cmd = commandWord sp (BitVec.ofBool rw) w ∧ i = Instr.ofFields rw w sp r.addr r.wdata := by
  obtain ⟨sp, w, hres, hfc, hsz, hi⟩ := decode_eq_ok.1 h
  exact ⟨sp, _, w, eq_commandWord_of_fields hres hfc hsz, hi⟩

theorem decode_encode (i : Instr) : decode (encode i) = .ok i := by
  conv_rhs => rw [i.eq_ofFields]
  rw [encode_eq, decode_commandWord]
  simp

theorem encode_wellFormed (i : Instr) : (encode i).wellFormed = true := by
  rw [encode_eq]
  exact Laws.Encoding.wellFormed_commandWord ..

theorem encode_inj {i j : Instr} (h : encode i = encode j) : i = j :=
  Except.ok.inj ((decode_encode i).symm.trans (h ▸ decode_encode j))

/-- 30_encoding.md R68: a request with the data a read ignores cleared, by its direction bit. -/
theorem Request.normalized_eq (r : Request) :
    r.normalized = ⟨r.cmd, r.addr, if r.cmd.getLsbD 2 then 0#32 else r.wdata⟩ := by
  unfold Request.normalized
  split <;> rfl

theorem encode_normalized (i : Instr) : (encode i).normalized = encode i := by
  rw [Request.normalized_eq]
  cases i <;> simp [encode]

/-- A request that spells an instruction is its encoding, but for the data a read ignores. -/
theorem normalized_of_decode {r : Request} {i : Instr} (h : decode r = .ok i) : r.normalized = encode i := by
  obtain ⟨sp, rw, w, hcmd, rfl⟩ := layout_of_decode h
  rw [Request.normalized_eq, encode_eq, hcmd]
  cases rw <;> simp

theorem wellFormed_of_decode {r : Request} {i : Instr} (h : decode r = .ok i) : r.wellFormed = true := by
  rcases r with ⟨c, a, v⟩
  obtain ⟨sp, rw, w, rfl, _⟩ := layout_of_decode h
  exact Laws.Encoding.wellFormed_commandWord ..

/-- A request that is not well-formed spells nothing, and the decoder says why. -/
theorem exists_decode_error {r : Request} (h : r.wellFormed = false) : ∃ e, decode r = .error e := by
  cases hd : decode r with
  | ok i => exact absurd (wellFormed_of_decode hd) (by simp [h])
  | error e => exact ⟨e, rfl⟩

/-- Settles O6: a well-formed request spells some instruction, and there is only one whose encoding it can be. -/
theorem decodeEncodeAgree : Obligations.DecodeEncodeAgree := by
  refine ⟨fun i => ⟨decode_encode i, encode_wellFormed i, encode_normalized i⟩, fun r i => ⟨fun h => ?_, ?_⟩⟩
  · exact ⟨wellFormed_of_decode h, normalized_of_decode h⟩
  · rintro ⟨hwf, hnorm⟩
    obtain ⟨j, hj⟩ := exists_decode_of_wellFormed hwf
    exact encode_inj ((normalized_of_decode hj).symm.trans hnorm) ▸ hj

/-! 30_encoding.md R70: the checks, each where those before it pass. -/

theorem decode_of_reserved_bits {r : Request} (hres : r.cmd.extractLsb' 6 2 ≠ 0#2) :
    decode r = .error .reservedBits := if_pos hres

theorem decode_of_unused_fc {r : Request} (hres : r.cmd.extractLsb' 6 2 = 0#2)
    (hfc : r.cmd.extractLsb' 3 3 ∈ [0#3, 3#3, 4#3, 7#3]) : decode r = .error .unrepresentableFunctionCode := by
  simp [decode, hres, AddressSpace.ofFc_eq_none_of_unused hfc]

theorem decode_of_reserved_size {r : Request} {sp : AddressSpace} (hres : r.cmd.extractLsb' 6 2 = 0#2)
    (hfc : r.cmd.extractLsb' 3 3 = sp.fc) (hsz : r.cmd.extractLsb' 0 2 = 3#2) : decode r = .error .reservedSize := by
  have hnone : Width.ofSz 3#2 = none := rfl
  simp [decode, hres, hfc, hsz, hnone]

/-- Settles O5: an equation of the decoder for each check that fails, and the fields where none does. -/
theorem decoderChecksInOrder : Obligations.DecoderChecksInOrder := by
  intro r
  have hspace (hfc : r.cmd.extractLsb' 3 3 ∈ [1#3, 2#3, 5#3, 6#3]) :
      ∃ sp : AddressSpace, r.cmd.extractLsb' 3 3 = sp.fc :=
    Request.exists_fc_of_fcOk (List.contains_iff_mem.2 hfc)
  refine ⟨decode_of_reserved_bits, decode_of_unused_fc, fun hres hfc hsz => ?_, fun hres hfc hsz => ?_⟩
  · obtain ⟨sp, hsp⟩ := hspace hfc
    exact decode_of_reserved_size hres hsp hsz
  · obtain ⟨sp, hsp⟩ := hspace hfc
    obtain ⟨w, hw⟩ := Width.exists_sz_of_ne hsz
    refine ⟨_, decode_eq_ok.2 ⟨sp, w, hres, hsp, hw, rfl⟩, ?_⟩
    simp [hsp, hw, Width.bytes_eq_two_pow_sz]

/-- The six command words of an AddressSpace: the writes, then the reads, by rising width. -/
def commandWordsOf (sp : AddressSpace) : List Cmd :=
  [0#1, 1#1].flatMap fun rw => [Width.byte, .word, .long].map (commandWord sp rw)

theorem mem_commandWordsOf {c : Cmd} {sp : AddressSpace} :
    c ∈ commandWordsOf sp ↔ ∃ rw w, c = commandWord sp rw w := by
  have hrw : ∀ rw : BitVec 1, rw ∈ [0#1, 1#1] := by decide
  have hw : ∀ w : Width, w ∈ [Width.byte, .word, .long] := fun w => by cases w <;> decide
  simp only [commandWordsOf, List.mem_flatMap, List.mem_map, hrw, hw, true_and, eq_comm]

/-- 30_encoding.md R61, R69: the requests that spell an instruction are those with a command word of the layout. -/
theorem exists_decode_iff {c : Cmd} {a : Addr} {v : Word} :
    (∃ i, decode ⟨c, a, v⟩ = .ok i) ↔ ∃ sp, c ∈ commandWordsOf sp := by
  simp only [mem_commandWordsOf]
  constructor
  · rintro ⟨i, h⟩
    obtain ⟨sp, _, w, hcmd, _⟩ := layout_of_decode h
    exact ⟨sp, _, w, hcmd⟩
  · rintro ⟨sp, rw, w, rfl⟩
    exact ⟨_, decode_commandWord ..⟩

/-- Settles O7: the list is that of the six command words of each AddressSpace. -/
theorem twentyFourLegalCommandWords : Obligations.TwentyFourLegalCommandWords := by
  intro c a v
  have hlist : [0x08#8, 0x09#8, 0x0A#8, 0x0C#8, 0x0D#8, 0x0E#8] ++ [0x10#8, 0x11#8, 0x12#8, 0x14#8, 0x15#8, 0x16#8] ++
      [0x28#8, 0x29#8, 0x2A#8, 0x2C#8, 0x2D#8, 0x2E#8] ++ [0x30#8, 0x31#8, 0x32#8, 0x34#8, 0x35#8, 0x36#8] =
      commandWordsOf .userData ++ commandWordsOf .userProgram ++ commandWordsOf .supervisorData ++
        commandWordsOf .supervisorProgram := by decide
  rw [exists_decode_iff, hlist]
  simp only [List.mem_append]
  constructor
  · rintro ⟨sp, h⟩
    rcases sp.eq_one_of_four with rfl | rfl | rfl | rfl <;> simp [h]
  · rintro (((h | h) | h) | h) <;> exact ⟨_, h⟩

/-- A word that holds an instruction's encoding decodes to the instruction. -/
theorem decodeTableWord_of_encode {n w : Nat} {i : Instr} (h : Request.ofBits (w % 2 ^ n) = encode i) :
    decodeTableWord n w = some i := by
  rw [decodeTableWord, h, decode_encode]

/-- Settles O8: six words hold the encodings of their instructions, and three fail one check each. -/
theorem sampleWordsDecode : Obligations.SampleWordsDecode :=
  ⟨decodeTableWord_of_encode rfl, decodeTableWord_of_encode rfl, decodeTableWord_of_encode rfl,
    decodeTableWord_of_encode rfl, decodeTableWord_of_encode rfl, decodeTableWord_of_encode rfl,
    decode_of_reserved_size (sp := .userData) rfl rfl rfl, decode_of_unused_fc rfl (by decide),
    decode_of_reserved_bits (by decide)⟩

end Sys2Proof
end

section
/-! PROOFS. Lines of text, by the pieces they are cut into. -/

namespace Sys2Proof.Machine

/-! 30_encoding.md R72: the three forms of a line, by its pieces. -/

theorem parseLine_new {line : String} {size : List Char} {n : Nat}
    (hp : pieces line.toList [] = ["NEW".toList, size]) (hn : literal size = some n) :
    parseLine line = some (.construct n) := by
  simp [parseLine, hp, hn]

theorem parseLine_read {line : String} {name space addr : List Char} {mk : AddressSpace → Addr → Instr}
    {sp : AddressSpace} {a : Addr} (hp : pieces line.toList [] = [name, space, [','], addr])
    (hop : readOfName name = some mk) (hsp : spaceOfName space = some sp) (ha : literal32 addr = some a) :
    parseLine line = some (.request (encode (mk sp a))) := by
  simp [parseLine, hp, hop, hsp, ha]

theorem parseLine_write {line : String} {name space addr value : List Char}
    {mk : AddressSpace → Addr → Word → Instr} {sp : AddressSpace} {a : Addr} {v : Word}
    (hp : pieces line.toList [] = [name, space, [','], addr, [','], value])
    (hop : writeOfName name = some mk) (hsp : spaceOfName space = some sp) (ha : literal32 addr = some a)
    (hv : literal32 value = some v) : parseLine line = some (.request (encode (mk sp a v))) := by
  simp [parseLine, hp, hop, hsp, ha, hv]

/-- Settles O9: six lines have one of the three forms, by evaluation of their pieces; the last names no AddressSpace. -/
theorem textLinesStandForEvents : Obligations.TextLinesStandForEvents :=
  ⟨parseLine_new rfl rfl, parseLine_new rfl rfl,
    parseLine_write (mk := .writeLong) (sp := .supervisorData) rfl rfl rfl rfl rfl,
    parseLine_read (mk := .readWord) (sp := .userData) rfl rfl rfl rfl,
    parseLine_read (mk := .readLong) (sp := .supervisorProgram) rfl rfl rfl rfl,
    parseLine_write (mk := .writeByte) (sp := .userData) rfl rfl rfl rfl rfl, rfl⟩

end Sys2Proof.Machine
end

section
/-! PROOFS. The step that takes a request: it runs what the decoder reads, or is refused by the decoder's reason. -/

namespace Sys2Proof.Machine

theorem decoded_of_decode_error {r : Request} {e : DecodeError} (hd : decode r = .error e) (s : State)
    (run : Instr → State → Host.Outcome State Fault Refusal) :
    decoded r s run = .next (s.refuse (.undecodable e)) := by
  rw [decoded, hd]

theorem complete_of_inFlight {s : State} {i : Instr} (hf : s.inFlight = some i) :
    complete s = exec i { s with inFlight := none } := by
  rw [complete, hf]

/-- Settles O37: the event is performed; the decoder finds `i` in a request, and the state holds it in flight. -/
theorem stepRunsDecodedInstruction : Obligations.StepRunsDecodedInstruction := by
  intro s r i rest hd hr
  refine ⟨fun hp => ?_, fun hp ha => ?_, fun hp hf => ?_⟩
  · exact (step_of_pending hp hr).trans (decoded_of_decode hd _ exec)
  · exact (step_of_pending hp hr).trans
      ((decoded_of_decode hd _ takeUp).trans (takeUp_of_accepting (s := { s with pending := rest }) ha i))
  · exact (step_of_pending hp hr).trans (complete_of_inFlight hf)

/-- Settles O39: the decoder's reason is the one named, whether the request is to be run or to be taken up. -/
theorem undecodableRequestIsRefused : Obligations.UndecodableRequestIsRefused := by
  intro s r rest hwf hr hp
  obtain ⟨e, hd⟩ := exists_decode_error hwf
  refine ⟨e, hd, ?_⟩
  rcases hp with hp | hp
  · exact (step_of_pending hp hr).trans (decoded_of_decode_error hd _ exec)
  · exact (step_of_pending hp hr).trans (decoded_of_decode_error hd _ takeUp)

end Sys2Proof.Machine
end

section
/-! PROOFS. Equality of AddressSpace values, by fields and by function codes, and their debug texts. -/

namespace Sys2Proof

theorem AddressSpace.eq_iff_fields {s t : AddressSpace} :
    s.eq t = true ↔ s.mode = t.mode ∧ s.segment = t.segment := by
  rw [AddressSpace.eq, Bool.and_eq_true, decide_eq_true_iff, decide_eq_true_iff]

/-- An AddressSpace value is its two fields (40_address_space.md R74). -/
theorem AddressSpace.eq_iff {s t : AddressSpace} : s.eq t = true ↔ s = t := by
  cases s
  cases t
  rw [AddressSpace.eq_iff_fields, AddressSpace.mk.injEq]

/-- 40_address_space.md R74: `fc` is one-to-one, since a code stands for the AddressSpace that has it. -/
theorem AddressSpace.fc_injective : Function.Injective AddressSpace.fc := fun s _ h =>
  Option.some.inj ((AddressSpace.ofFc_fc s).symm.trans (AddressSpace.ofFc_eq_some.2 h))

/-- Settles O2: the two fields are the whole value, and the function code determines it. -/
theorem addressSpaceEquality : Obligations.AddressSpaceEquality :=
  ⟨fun _ _ => AddressSpace.eq_iff_fields,
    fun _ _ => AddressSpace.eq_iff.trans AddressSpace.fc_injective.eq_iff.symm,
    fun _ _ => AddressSpace.eq_iff⟩

/-- Settles O3: each text is `debug` evaluated, its two names joined. -/
theorem debugTextOfAddressSpaces : Obligations.DebugTextOfAddressSpaces :=
  ⟨rfl, rfl, rfl, rfl⟩

end Sys2Proof
end

section
/-! PROOFS. The three reads, each with its bytes written out, and transactions that are not accepted. -/

namespace Sys2Proof.Machine

/-- 20_memory.md R43: the first constituent byte is at the request address. -/
theorem State.physOf_zero (s : State) (a : Addr) : s.physOf a 0 = s.phys a := congrArg s.phys (constituent_zero a)

/-- Shifting a byte in at the low end of a word appends it to the value held there. -/
theorem setWidth_shiftLeft_or_byte {n : Nat} (x : BitVec n) (b : Byte) :
    x.setWidth 32 <<< 8 ||| b.setWidth 32 = (x ++ b).setWidth 32 := by
  refine BitVec.eq_of_getLsbD_eq fun k hk => ?_
  have hin : k - 8 < 32 := by omega
  simp only [BitVec.getLsbD_or, BitVec.getLsbD_shiftLeft, BitVec.getLsbD_setWidth, BitVec.getLsbD_append, hk, hin,
    decide_true, Bool.true_and]
  by_cases hlow : k < 8
  · simp [hlow]
  · simp [hlow, BitVec.getLsbD_of_ge b k (by omega)]

theorem composed_range_one (s : State) (a : Addr) :
    composed s a (List.range 1) 0#32 = (s.mem.read (s.phys a)).setWidth 32 := by
  simp [composed, State.physOf_zero]

/-- 00_scope.md R10, 20_memory.md R44: the next constituent byte is appended, less significant than those before it. -/
theorem composed_range_append {s : State} {a : Addr} {n w : Nat} {x : BitVec w}
    (h : composed s a (List.range n) 0#32 = x.setWidth 32) :
    composed s a (List.range (n + 1)) 0#32 = (x ++ s.mem.read (s.physOf a n)).setWidth 32 := by
  rw [composed_range_succ, h, setWidth_shiftLeft_or_byte]

theorem composed_range_two (s : State) (a : Addr) :
    composed s a (List.range 2) 0#32 = (s.mem.read (s.phys a) ++ s.mem.read (s.phys (a + 1#32))).setWidth 32 :=
  composed_range_append (composed_range_one s a)

theorem composed_range_four (s : State) (a : Addr) :
    composed s a (List.range 4) 0#32 =
      s.mem.read (s.phys a) ++ s.mem.read (s.phys (a + 1#32)) ++ s.mem.read (s.phys (a + 2#32)) ++
        s.mem.read (s.phys (a + 3#32)) :=
  (composed_range_append (composed_range_append (composed_range_two s a))).trans (BitVec.setWidth_eq _)

/-! The page indices of the constituent bytes, written out. -/

theorem State.pg_of_one_byte (s : State) (a : Addr) (g : Nat) :
    (∃ i < 1, g = s.pg (s.physOf a i)) ↔ g = s.pg (s.phys a) := by
  simp [State.physOf_zero]

theorem State.pg_of_two_bytes (s : State) (a : Addr) (g : Nat) :
    (∃ i < 2, g = s.pg (s.physOf a i)) ↔ g = s.pg (s.phys a) ∨ g = s.pg (s.phys (a + 1#32)) := by
  rw [Nat.exists_lt_succ_right, State.pg_of_one_byte]
  rfl

theorem State.pg_of_four_bytes (s : State) (a : Addr) (g : Nat) :
    (∃ i < 4, g = s.pg (s.physOf a i)) ↔ g = s.pg (s.phys a) ∨ g = s.pg (s.phys (a + 1#32)) ∨
      g = s.pg (s.phys (a + 2#32)) ∨ g = s.pg (s.phys (a + 3#32)) := by
  rw [Nat.exists_lt_succ_right, Nat.exists_lt_succ_right, State.pg_of_two_bytes, or_assoc, or_assoc]
  rfl

/-- Settles O22: the value composed is the one byte, and only its page can be allocated. -/
theorem readByteResult : Obligations.ReadByteResult := by
  intro s sp a h ha
  obtain ⟨ps, e, hps, _⟩ := State.readTransaction_accepted .readByte sp a h ha
  refine ⟨ps, composed_range_one s a ▸ e, fun g => ?_⟩
  rw [← s.pg_of_one_byte]
  exact hps g

/-- Settles O23: the value composed is the first byte with the second appended, and only their pages can be allocated. -/
theorem readWordResult : Obligations.ReadWordResult := by
  intro s sp a h ha
  obtain ⟨ps, e, hps, _⟩ := State.readTransaction_accepted .readWord sp a h ha
  refine ⟨ps, composed_range_two s a ▸ e, fun g => ?_⟩
  rw [← s.pg_of_two_bytes]
  exact hps g

/-- Settles O24: the value composed is the first byte with the other three appended in turn, and only their pages can be
allocated. -/
theorem readLongResult : Obligations.ReadLongResult := by
  intro s sp a h ha
  obtain ⟨ps, e, hps, _⟩ := State.readTransaction_accepted .readLong sp a h ha
  refine ⟨ps, _, composed_range_four s a, e, fun g => ?_⟩
  rw [← s.pg_of_four_bytes]
  exact hps g

/-- Settles O33: each clause names what blocks the transaction, and a blocked one is refused by that name. -/
theorem unacceptedTransactionChangesNothing : Obligations.UnacceptedTransactionChangesNothing := by
  refine fun i s => ⟨fun hl => exec_of_blocked ?_ i, fun hl => exec_of_blocked ?_ i,
    fun hl hf => exec_of_blocked (State.blocked_of_busy hl hf) i⟩
  · rw [State.blocked, hl]
  · rw [State.blocked, hl]

end Sys2Proof.Machine
end

section
/-! PROOFS. The three writes, each with its bytes written out. -/

namespace Sys2Proof.Machine

/-- 20_memory.md R45, decision D20: the last constituent byte stored stays, and leaves the rest to those before it. -/
theorem overwritten_range_succ (s : State) (a : Addr) (w : Width) (v : Word) (n p : Nat) (b : Byte) :
    overwritten s a w v (List.range (n + 1)) p b =
      if p = s.physOf a n then byteOf w v n else overwritten s a w v (List.range n) p b := by
  simp [overwritten, List.range_succ, eq_comm]

/-! The byte at `p` after each write over `b`: the last constituent byte that names `p` decides it. -/

theorem overwritten_byte (s : State) (a : Addr) (v : Word) (p : Nat) (b : Byte) :
    overwritten s a .byte v (List.range 1) p b = if p = s.phys a then v.extractLsb' 0 8 else b := by
  rw [overwritten_range_succ, State.physOf_zero]
  rfl

theorem overwritten_word (s : State) (a : Addr) (v : Word) (p : Nat) (b : Byte) :
    overwritten s a .word v (List.range 2) p b =
      if p = s.phys (a + 1#32) then v.extractLsb' 0 8
      else if p = s.phys a then v.extractLsb' 8 8
      else b := by
  rw [overwritten_range_succ, overwritten_range_succ, State.physOf_zero]
  rfl

theorem overwritten_long (s : State) (a : Addr) (v : Word) (p : Nat) (b : Byte) :
    overwritten s a .long v (List.range 4) p b =
      if p = s.phys (a + 3#32) then v.extractLsb' 0 8
      else if p = s.phys (a + 2#32) then v.extractLsb' 8 8
      else if p = s.phys (a + 1#32) then v.extractLsb' 16 8
      else if p = s.phys a then v.extractLsb' 24 8
      else b := by
  rw [overwritten_range_succ, overwritten_range_succ, overwritten_range_succ, overwritten_range_succ, State.physOf_zero]
  rfl

/-- Settles O25: the one byte is stored, and its page is allocated. -/
theorem writeByteResult : Obligations.WriteByteResult := by
  intro s sp a v h ha
  obtain ⟨m, ps, e, hm, hps, _⟩ := State.writeTransaction_accepted .writeByte sp a v h ha
  refine ⟨m, ps, e, fun p => (hm p).trans (overwritten_byte s a v p _), fun g => ?_⟩
  rw [← s.pg_of_one_byte]
  exact hps g

/-- Settles O26: the second byte is stored over what the first one left, and their pages are allocated. -/
theorem writeWordResult : Obligations.WriteWordResult := by
  intro s sp a v h ha
  obtain ⟨m, ps, e, hm, hps, _⟩ := State.writeTransaction_accepted .writeWord sp a v h ha
  refine ⟨m, ps, e, fun p => (hm p).trans (overwritten_word s a v p _), fun g => ?_⟩
  rw [← s.pg_of_two_bytes]
  exact hps g

/-- Settles O27: each byte is stored over what those before it left, and their pages are allocated. -/
theorem writeLongResult : Obligations.WriteLongResult := by
  intro s sp a v h ha
  obtain ⟨m, ps, e, hm, hps, _⟩ := State.writeTransaction_accepted .writeLong sp a v h ha
  refine ⟨m, ps, e, fun p => (hm p).trans (overwritten_long s a v p _), fun g => ?_⟩
  rw [← s.pg_of_four_bytes]
  exact hps g

end Sys2Proof.Machine
end

section
/-! PROOFS. Nothing is raised at access time, and a logging decorator in front of a bus is transparent. -/

namespace Sys2Proof.Machine

/-- 60_exceptions.md R86: accepted or refused, a transaction neither faults nor stops the run. -/
theorem exists_exec_eq_next (i : Instr) (s : State) : ∃ t, exec i s = .next t := by
  rcases exec_cases i s with ⟨t, _, e⟩ | ⟨why, _, _, e⟩
  · exact ⟨t, e⟩
  · exact ⟨s.refuse why, e⟩

/-- Settles O32: an accepted transaction replaces storage, pages, history and answer alone, and the answer is that of its
direction. -/
theorem noAccessTimeException : Obligations.NoAccessTimeException := by
  refine fun i s => ⟨exists_exec_eq_next i s, fun ha => ?_⟩
  cases i with
  | readByte sp a | readWord sp a | readLong sp a =>
    exact ⟨_, State.readTransaction_eq _ sp a ha, rfl, ha.1, nofun, fun _ => ⟨_, rfl⟩⟩
  | writeByte sp a v | writeWord sp a v | writeLong sp a v =>
    exact ⟨_, State.writeTransaction_eq _ sp a v ha, rfl, ha.1, fun _ => rfl, nofun⟩

/-- One transaction behind the decorator: the answer and the inner state it has without, and the call at the end of the
log. -/
theorem AddressBus.run_logging {σ : Type} (b : AddressBus σ) (i : Instr) (log : List Instr) (s : σ) :
    b.logging.run i (log, s) = ((b.run i s).1, (log ++ [i], (b.run i s).2)) := by
  cases i <;> rfl

/-- 60_exceptions.md R99, for programs: by induction on the program, for every log that stands before it. -/
theorem AddressBus.runAll_logging {σ : Type} (b : AddressBus σ) (is log : List Instr) (s : σ) :
    b.logging.runAll is (log, s) = ((b.runAll is s).1, (log ++ is, (b.runAll is s).2)) := by
  induction is generalizing log s with
  | nil => simp only [AddressBus.runAll, List.append_nil]
  | cons i is ih => simp only [AddressBus.runAll, AddressBus.run_logging, ih, List.append_cons log i is]

/-- Settles O36: both clauses are parts of one equation of the decorated program. -/
theorem loggingIsTransparent : Obligations.LoggingIsTransparent := by
  intro σ b is log s
  rw [b.runAll_logging is log s]
  exact ⟨rfl, rfl⟩

end Sys2Proof.Machine
end

section
/-! PROOFS. The session: a caller that keeps the contract is served, and outside it every request is refused. -/

namespace Sys2Proof.Machine

/-- 70_reset_and_hazards.md R110: a legal request to an idle, unmarked block completes with one record, and leaves the
block ready for the next. -/
theorem step_of_legal_request {s : State} {r : Request} {rest : List Event} (h : s.Inv) (ha : s.Accepting)
    (hr : s.refused = false) (hwf : r.wellFormed = true) (hp : s.pending = .request r :: rest) :
    ∃ t d, step s = .next t ∧ t.Safe ∧ t.Accepting ∧ t.pending = rest ∧ t.history = s.history ++ [d] := by
  obtain ⟨i, hd⟩ := exists_decode_of_wellFormed hwf
  obtain ⟨m, ps, d, ans, e, _, _, _⟩ := exec_accepted i (h.with_pending rest) ha
  have hstep : step s = _ := (step_of_pending hp hr).trans ((decoded_of_decode hd _ exec).trans e)
  exact ⟨_, _, hstep, ⟨h.step hstep, hr⟩, ha, rfl, rfl⟩

/-- Legal requests one after another all complete, each with its record after those before it. -/
theorem run_of_legal_requests {s : State} {rs : List Request} (h : s.Inv) (ha : s.Accepting) (hr : s.refused = false)
    (hwf : ∀ r ∈ rs, r.wellFormed = true) (hp : s.pending = rs.map .request) :
    ∃ t ds, Host.Core.run Sys2Proof.core rs.length s = .next t ∧ t.Safe ∧ t.Accepting ∧ t.pending = [] ∧
      t.history = s.history ++ ds ∧ ds.length = rs.length := by
  induction rs generalizing s with
  | nil => exact ⟨s, [], rfl, ⟨h, hr⟩, ha, hp, (List.append_nil _).symm, rfl⟩
  | cons r rs ih =>
    obtain ⟨hwf_head, hwf_rest⟩ := List.forall_mem_cons.1 hwf
    obtain ⟨u, d, hstep, ⟨hu, hur⟩, hua, hup, huh⟩ := step_of_legal_request h ha hr hwf_head hp
    obtain ⟨t, ds, hrun, hsafe, hta, htp, hth, hlen⟩ := ih hu hua hur hwf_rest hup
    refine ⟨t, d :: ds, run_succ_eq_next_iff.2 ⟨u, hstep, hrun⟩, hsafe, hta, htp, ?_, congrArg (· + 1) hlen⟩
    rw [hth, huh, List.append_assoc, List.singleton_append]

/-- Settles O50, by induction on the requests: each step keeps what the next request needs, and adds one record. -/
theorem contractIsSufficient : Obligations.ContractIsSufficient := by
  intro s rs h ha hr hp hwf
  obtain ⟨t, ds, hrun, hsafe, hta, htp, hth, hlen⟩ := run_of_legal_requests h ha hr hwf hp
  exact ⟨t, hrun, hsafe, hta, htp, by rw [hth, List.length_append, hlen], by rw [hth, List.take_left]⟩

/-- 10_state.md R32: outside the session a transaction is blocked by where its life stands. -/
theorem State.blocked_of_not_live {s : State} (hl : s.life ≠ .live) :
    s.blocked = some (if s.life = .unconstructed then .unconstructed else .released) := by
  unfold State.blocked
  cases hs : s.life with
  | unconstructed => rfl
  | released => rfl
  | live => exact absurd hs hl

/-- A legal request to a blocked machine is refused at once, whether it is to be run or to be taken up. -/
theorem step_of_blocked_request {s : State} {r : Request} {rest : List Event} {why : RefuseReason}
    (hb : s.blocked = some why) (hr : s.refused = false) (hwf : r.wellFormed = true)
    (hp : s.pending = .request r :: rest ∨ s.pending = .issue r :: rest) :
    step s = .next { s with pending := rest, refused := true, response := .refused why } := by
  obtain ⟨i, hd⟩ := exists_decode_of_wellFormed hwf
  have hb' : State.blocked { s with pending := rest } = some why := hb
  rcases hp with hp | hp
  · exact (step_of_pending hp hr).trans ((decoded_of_decode hd _ exec).trans (exec_of_blocked hb' i))
  · exact (step_of_pending hp hr).trans ((decoded_of_decode hd _ takeUp).trans (takeUp_of_blocked hb' i))

/-- Settles O40: the life that is not live blocks the request, and names the refusal. -/
theorem requestOutsideTheSessionIsRefused : Obligations.RequestOutsideTheSessionIsRefused :=
  fun _ _ _ hl hr hwf hp => step_of_blocked_request (State.blocked_of_not_live hl) hr hwf hp

/-- The mark at the end of an unmarked session says whether a transaction was in flight. -/
theorem State.markAtEnd_of_unmarked {s : State} (hr : s.refused = false) : s.markAtEnd = s.inFlight.isSome := by
  rw [State.markAtEnd, hr, Bool.false_or]

/-- Settles O46: the step is the release, which empties the block, and what is released is blocked by that name. -/
theorem releaseEndsTheSession : Obligations.ReleaseEndsTheSession := by
  intro s rest hl hr hp
  have hstep : step s = .next (State.release { s with pending := rest }) := (step_of_pending hp hr).trans (if_pos hl)
  have hmark : State.markAtEnd { s with pending := rest } = s.inFlight.isSome := State.markAtEnd_of_unmarked hr
  refine ⟨_, hstep, rfl, rfl, rfl, fun g => State.lookup_of_not_mem List.not_mem_nil, rfl, ?_, exec_of_blocked rfl⟩
  rw [State.release_refused, hmark, Option.isSome_iff_ne_none]

end Sys2Proof.Machine
end

section
/-! PROOFS. Construction: its outcomes, what reads then return, and the configuration it fixes. -/

namespace Sys2Proof.Machine

/-! 70_reset_and_hazards.md R101: an equation of `NEW(size)` for each of its outcomes. -/

theorem State.construct_of_zero (s : State) : s.construct 0 = s.raiseConstructError .sizeZero 0 := if_pos rfl

theorem State.construct_of_too_large {n : Nat} (hn : maxSize < n) (s : State) :
    s.construct n = s.raiseConstructError .sizeTooLarge n := by
  rw [State.construct, if_neg (Nat.ne_zero_of_lt hn), if_pos hn]

theorem State.construct_of_legal {n : Nat} (hpos : 0 < n) (hle : n ≤ maxSize) (s : State) :
    s.construct n = { State.fresh ⟨n, s.pageBits, s.readAllocates⟩ with
      refused := s.markAtEnd, pending := s.pending } := by
  rw [State.construct, if_neg hpos.ne', if_neg hle.not_gt]

/-- Settles O43: the bound is `maxSize`, and the mark it leaves is that at the end of the session it replaces. -/
theorem constructionOutcomes : Obligations.ConstructionOutcomes := by
  intro s n rest hr hp
  have hstep : step s = .next (State.construct n { s with pending := rest }) := step_of_pending hp hr
  refine ⟨?_, fun hlarge => ?_, fun hpos hle => ?_, rfl, rfl⟩
  · rintro rfl
    exact hstep.trans (congrArg _ (State.construct_of_zero _))
  · exact hstep.trans (congrArg _ (State.construct_of_too_large hlarge _))
  · have hmark : State.markAtEnd { s with pending := rest } = s.inFlight.isSome := State.markAtEnd_of_unmarked hr
    rw [hstep, State.construct_of_legal hpos hle, hmark]
    rfl

/-- 10_state.md R17: where no byte is stored, the value read is zero. -/
theorem composed_of_mem_nil {s : State} (hm : s.mem = []) (a : Addr) (n : Nat) :
    composed s a (List.range n) 0#32 = 0#32 := by
  have hzero : composed s a (List.range n) 0#32 = ((0#32).extractLsb' 0 (8 * n)).setWidth 32 :=
    composed_of_slice fun i _ => by rw [hm, Memory.read_nil, BitVec.extractLsb'_zero]
  rw [hzero, BitVec.extractLsb'_zero, BitVec.setWidth_zero]

/-- 70_reset_and_hazards.md R103: a read of a live, idle block without storage answers zero and stores nothing. -/
theorem State.readTransaction_of_mem_nil {s : State} (h : s.Inv) (ha : s.Accepting) (hm : s.mem = []) (op : Op)
    (sp : AddressSpace) (a : Addr) :
    ∃ t, s.readTransaction op sp a = .next t ∧ t.response = .rdata 0#32 ∧ t.mem = [] := by
  obtain ⟨_, e, _⟩ := State.readTransaction_accepted op sp a h ha
  exact ⟨_, e, congrArg Response.rdata (composed_of_mem_nil hm a _), hm⟩

/-- Settles O44: what construction leaves accepts the read, and has no storage. -/
theorem freshInstanceReadsZero : Obligations.FreshInstanceReadsZero := by
  intro p i hp hread
  cases i with
  | readByte sp a | readWord sp a | readLong sp a =>
    exact State.readTransaction_of_mem_nil (State.fresh_inv hp) ⟨rfl, rfl⟩ rfl _ sp a
  | writeByte sp a v | writeWord sp a v | writeLong sp a v => cases hread

/-- The configuration a state holds (00_scope.md R6). -/
def State.params (s : State) : Params := ⟨s.size, s.pageBits, s.readAllocates⟩

theorem State.params_eq_iff {s t : State} :
    t.params = s.params ↔ t.size = s.size ∧ t.pageBits = s.pageBits ∧ t.readAllocates = s.readAllocates := by
  rw [State.params, State.params, Params.mk.injEq]

/-- A transaction, accepted or refused, leaves the configuration. -/
theorem exec_params {i : Instr} {s t : State} (h : exec i s = .next t) : t.params = s.params := by
  rcases exec_cases i s with ⟨_, ha, _⟩ | ⟨why, _, _, e⟩
  · cases i with
    | readByte sp a | readWord sp a | readLong sp a =>
      exact Host.Outcome.next.inj (h.symm.trans (State.readTransaction_eq _ sp a ha)) ▸ rfl
    | writeByte sp a v | writeWord sp a v | writeLong sp a v =>
      exact Host.Outcome.next.inj (h.symm.trans (State.writeTransaction_eq _ sp a v ha)) ▸ rfl
  · exact Host.Outcome.next.inj (e.symm.trans h) ▸ rfl

/-- Of the events that are taken only a construction sets the configuration. -/
theorem handle_params {e : Event} {s t : State} (he : ∀ n, e ≠ .construct n) (h : handle e s = .next t) :
    t.params = s.params := by
  obtain ⟨_, ⟨n, hn, _⟩ | ⟨r, _, hr⟩ | ⟨r, i, _, _, _, rfl⟩ | ⟨r, why, _, rfl⟩ | ⟨i, _, _, hc⟩ | ⟨_, _, rfl⟩⟩ :=
    handle_next_cases h
  · exact absurd hn (he n)
  · rcases serve_cases r s with ⟨i, _, hi⟩ | ⟨e, _, hi⟩
    · exact exec_params (hi.symm.trans hr)
    · exact Host.Outcome.next.inj (hi.symm.trans hr) ▸ rfl
  · rfl
  · rfl
  · exact exec_params (s := { s with inFlight := none }) hc
  · rfl

/-- Settles O45: the event that the step takes is no construction, so it leaves the configuration. -/
theorem configurationIsFixedInSession : Obligations.ConfigurationIsFixedInSession := by
  intro s t e rest hp he h
  refine State.params_eq_iff.1 ?_
  have hr : s.refused = false := unmarked_of_step_eq_next h
  have hhandle : handle e { s with pending := rest } = step s := by rw [step, hp]
  exact handle_params (s := { s with pending := rest }) he (hhandle.trans h)

end Sys2Proof.Machine
end
